-- ==== Sys2Proof/Word.lean ====
section
/-! DEFINITION. The three word types of the hardware (spec/00_scope.md rule R9): bytes, lanes of 64 bits, and the
25 lanes together. -/

namespace Sys2Proof

/-- A byte: an unsigned 8-bit value (R9). -/
abbrev Byte := BitVec 8

/-- A lane: an unsigned 64-bit value (R5, R9). -/
abbrev Lane := BitVec 64

/-- The 25 lanes A[x,y], held in the order of the lane number L = x + 5y (R21, R22). -/
abbrev Lanes := Vector Lane 25

end Sys2Proof
end

