-- ==== Sys2Proof/Config.lean ====
section
/-! DEFINITION. What is fixed for the machine: the names of the four parameter sets (spec/00_scope.md rule R6), the
constants of rule R8, and the one free value the spec leaves open while the machine goes on. -/

namespace Sys2Proof

/-- The digest-size parameter, "a closed tagged-variant enumeration over the four supported digest sizes"
(R24, R76): the legal values of DSZ. What each stands for is in Machine/Operands.lean. -/
inductive DigestSize where
  | d224
  | d256
  | d384
  | d512
  deriving DecidableEq, Repr

namespace Config

/-- LEN_MAX, the largest byte count of one UPDATE command: 2^32 - 1 (R8, R75). -/
def lenMax : Nat := 4294967295

/-- SUFFIX_BYTE, the first padding byte (R8, R113). -/
def suffixByte : Byte := 0x06#8

/-- FINAL_BIT_BYTE, ORed into the last byte of the padded block (R8, R113). -/
def finalBitByte : Byte := 0x80#8

/-- The block sizes R of the four parameter sets, in bytes (R6), as the encoding layer needs them. -/
def blockSizes : List Nat := [144, 136, 104, 72]

/-- FREE VALUE. Byte `i` of DIG while it is invalid, that is after CREATE or RESET and before FINALIZE: "unspecified
contents" (R28, R121, R124; 93_implementation_defined.md U6). It has no body, so no proof can know a value of it. It
depends on the digest size alone because the states after CREATE and after RESET are identical (R161). Log 2. -/
opaque invalidDigestByte : DigestSize → Nat → Byte

end Config
end Sys2Proof
end

