-- ==== Sys2Proof/Syntax.lean ====
section
/-! DEFINITION. The instructions, one constructor per row of spec/opcode_table.json; the two interfaces on which an
instruction's encoding can stand; and the responses (spec/00_scope.md rule R13). -/

namespace Sys2Proof

/-- Every operation of the hardware (00_scope R2): the five host commands (R77), the twelve micro-operations of the
inner blocks (R78) and the pseudo-operation HASH (R85). The operand `A` of the table is the machine's own state. -/
inductive Instr where
  /-- CREATE d (R121); d is an integer, so that the illegal values can be presented (R76). -/
  | create (d : Int)
  /-- UPDATE data (R122). -/
  | update (data : List Byte)
  /-- FINALIZE (R123). -/
  | finalize
  /-- RESET (R124). -/
  | reset
  /-- HEXENC (R125). -/
  | hexenc
  /-- THETA (R92). -/
  | theta
  /-- RHO (R93). -/
  | rho
  /-- PI (R94). -/
  | pi
  /-- CHI (R95). -/
  | chi
  /-- IOTA ir; ir is "a value of a 24-element type so that the ROM read is total" (R96). -/
  | iota (ir : Fin 24)
  /-- ROUND ir (R97). -/
  | round (ir : Fin 24)
  /-- KECCAK_F (R98). -/
  | keccakF
  /-- XOR_STATE_BYTE i v (R110); i is an index into S[0..199] (R50), and the rule asks for i < R. -/
  | xorStateByte (i : Fin 200) (v : Byte)
  /-- ABSORB_BLOCK P (R111); the rule asks for exactly R bytes. -/
  | absorbBlock (p : List Byte)
  /-- BUF_APPEND v (R112). -/
  | bufAppend (v : Byte)
  /-- PAD (R113). -/
  | pad
  /-- SQUEEZE (R114). -/
  | squeeze
  /-- HASH d, bytes: the pseudo-operation (R85, R126). -/
  | hash (d : Int) (bytes : List Byte)
  deriving DecidableEq, Repr

/-- A word of format M: the select code and the operand bytes listed with it, as they stand side by side at the
interface between the engine's sequencer and the inner blocks (R78). The spec gives the code; the operand bytes are a
DESIGN CHOICE, log 6. -/
structure MicroWord where
  code : Byte
  operands : List Byte
  deriving DecidableEq, Repr

/-- What can be decoded: bytes of the host's command stream (R70), or one format M word at the sequencer's interface
(R78). The two have different codes: a select code is reserved in the stream (R79). -/
inductive Packet where
  | host (bytes : List Byte)
  | micro (word : MicroWord)
  deriving DecidableEq, Repr

/-- The two errors of the taxonomy (R140, R143: "a two-constructor type"). -/
inductive Error where
  | invalidParameter
  | invalidState
  deriving DecidableEq, Repr

/-- The response that ends every host command (R13). Text is held as its ASCII codes (R83, R125). -/
inductive Response where
  | ok
  | digest (bytes : List Byte)
  | text (chars : List Byte)
  | error (e : Error)
  deriving DecidableEq, Repr

end Sys2Proof
end

