-- ==== Sys2Proof/Machine/State.lean ====
section
/-! DEFINITION. The state of one engine instance (spec/10_state.md rule R20), the reasons a step stops, and the state
after power-on (rules R37, R160). -/

namespace Sys2Proof.Machine

/-- PHASE, the lifecycle state (R27). -/
inductive Phase where
  | uncreated
  | absorbing
  | finalized
  deriving DecidableEq, Repr

/-- One engine instance. The first six fields are the spec's state (R20; CNT is the length of `buf`, S a view of
`lanes`, the ROMs are constants); the last four are the model's own and stand for the two interfaces (log 5, 6, 8). -/
structure State where
  /-- A, 25 lanes of 64 bits in the order L = x + 5y (R21, R22). -/
  lanes : Lanes
  /-- BUF[0..CNT-1], the architectural bytes of the absorption buffer; CNT is its length (R25, R26; log 3). -/
  buf : List Byte
  /-- DSZ, the digest-size parameter (R24). -/
  dsz : DigestSize
  /-- PHASE (R27). -/
  phase : Phase
  /-- DIG[0..DB-1], the digest register (R28). -/
  dig : List Byte
  /-- ir, the round index, present only inside KECCAK_F (R32; log 12). -/
  ir : Option (Fin 24)
  /-- The command bytes presented and not yet consumed (R70; log 5). -/
  stream : List Byte
  /-- The responses delivered, oldest first (R13, R70; log 5). -/
  responses : List Response
  /-- The micro-operation presented at the sequencer's interface (R78; log 6). -/
  select : Option MicroWord
  /-- The blocks PAD returned at that interface, oldest first (R113; log 8). -/
  blocks : List (List Byte)
  deriving DecidableEq, Repr

/-- What stops the machine at a micro-operation that its rule gives no effect: the operands or the state are outside
what the rule asks for. No host command raises one. All are safe: the machine stops. Log 7. -/
inductive Fault where
  /-- XOR_STATE_BYTE with an index i ≥ R, in the capacity region, which no operation but the permutation may write
  (R59, R110). Safe. -/
  | indexOutsideRate (i : Fin 200)
  /-- ABSORB_BLOCK with a sequence that is not exactly R bytes (R111). Safe. -/
  | notOneBlock (length : Nat)
  /-- BUF_APPEND or PAD while CNT ≥ R: BUF has no byte at index CNT (R25, R112, R113). Safe; no run reaches it. -/
  | bufferFull
  deriving DecidableEq, Repr

/-- What gives no meaning to the bytes that were fetched. All are safe: the machine stops. Log 9. -/
inductive Refusal where
  /-- An instruction whose meaning is not modelled; no arm of exec raises it. Safe. -/
  | notModelled (mnemonic : String)
  /-- A reserved command code in the host's stream: "A model must refuse a command stream that contains one" (R79).
  Raised by step. Safe. -/
  | reservedCode (code : Byte)
  /-- A finite stream that ends inside a command (R80). Raised by step. Safe. -/
  | truncatedCommand
  /-- A format M word whose code names no micro-operation (R78). Raised by step. Safe. -/
  | unknownSelect (code : Byte)
  /-- A format M word whose operands are not those of its row (R78). Raised by step. Safe. -/
  | badSelectOperands (code : Byte)
  deriving DecidableEq, Repr

/-- The state after power-on: PHASE = Uncreated and the engine idle, waiting for its first command (R37, R160). The
spec leaves A, BUF, CNT, DSZ and DIG unspecified and says a model must not assume zero lanes: the values here are
named by log 1 (DESIGN CHOICE), none of them zero. -/
def State.reset : State where
  lanes := Vector.replicate 25 0xFFFFFFFFFFFFFFFF#64
  buf := [0xFF#8]
  dsz := .d512
  phase := .uncreated
  dig := List.replicate 64 0xFF#8
  ir := none
  stream := []
  responses := []
  select := none
  blocks := []

end Sys2Proof.Machine
end

