-- ==== Sys2Proof/Machine/Flags.lean ====
section
/-! DEFINITION. The hardware has no flags: "The only flag-like state is PHASE" (spec/10_state.md rule R29). This file
holds the phase tests that the host commands make (spec/42_engine.md rule R120, spec/60_exceptions.md rule R142). -/

namespace Sys2Proof.Machine

/-- UPDATE and FINALIZE are accepted: PHASE = Absorbing (R122, R123). -/
def State.isAbsorbing (s : State) : Bool :=
  s.phase == .absorbing

/-- HEXENC is accepted: PHASE = Finalized (R125). -/
def State.isFinalized (s : State) : Bool :=
  s.phase == .finalized

/-- RESET is accepted: PHASE ≠ Uncreated (R124). -/
def State.isCreated (s : State) : Bool :=
  s.phase != .uncreated

end Sys2Proof.Machine
end

