-- ==== Sys2Proof/Machine/Lanes.lean ====
section
/-! DEFINITION. Lanes and their views: the lane operator ROL (spec/00_scope.md rule R10), the coordinates (rule R11),
the byte view S[0..199] (spec/10_state.md rule R22), the bit-string view (rule R23), and the one byte-wide write
(spec/41_sponge.md rule R110). The operators ^, &, ~ of rule R10 are the word type's own. -/

namespace Sys2Proof.Machine

/-- ROL(a, n) for 0 ≤ n ≤ 63: bit j moves to bit (j + n) mod 64 (R10). At n = 0 the right shift by 64 is zero, as the
rule's special case asks. -/
def rol (a : Lane) (n : Nat) : Lane :=
  (a <<< n) ||| (a >>> (64 - n))

/-- The lane number L = x + 5y (R22). -/
def laneNumber (x y : Fin 5) : Fin 25 :=
  ⟨x.val + 5 * y.val, by omega⟩

/-- A[x,y]: the read of one lane (R11, R12). -/
def lane (A : Lanes) (x y : Fin 5) : Lane :=
  A[laneNumber x y]

/-- The state whose lane (x,y) is `f x y`: "A <- A'", all 25 lanes at once (R12, R91). -/
def ofCoords (f : Fin 5 → Fin 5 → Lane) : Lanes :=
  #v[f 0 0, f 1 0, f 2 0, f 3 0, f 4 0,
     f 0 1, f 1 1, f 2 1, f 3 1, f 4 1,
     f 0 2, f 1 2, f 2 2, f 3 2, f 4 2,
     f 0 3, f 1 3, f 2 3, f 3 3, f 4 3,
     f 0 4, f 1 4, f 2 4, f 3 4, f 4 4]

/-- All 25 lanes zero, as CREATE and RESET leave them (R37). -/
def zeroLanes : Lanes :=
  ofCoords fun _ _ => 0#64

/-- Byte `k` of a lane: bits 8k+7..8k, byte 0 least significant (R22, R51). -/
def laneByte (a : Lane) (k : Nat) : Byte :=
  (a >>> (8 * k)).setWidth 8

/-- S[i]: byte i mod 8 of lane i div 8 (R22). -/
def stateByte (A : Lanes) (i : Fin 200) : Byte :=
  laneByte (A[i.val / 8]'(by omega)) (i.val % 8)

/-- The eight bytes of a lane, least significant first (R51). -/
def laneBytes (a : Lane) : List Byte :=
  [laneByte a 0, laneByte a 1, laneByte a 2, laneByte a 3, laneByte a 4, laneByte a 5, laneByte a 6, laneByte a 7]

/-- The flattened state S[0..199] (R22). -/
def stateBytes (A : Lanes) : List Byte :=
  A.toList.flatMap laneBytes

/-- The bit string of a byte sequence: the least significant bit of a byte comes first (R23). -/
def bitString (bytes : List Byte) : List Bool :=
  bytes.flatMap fun b => (List.range 8).map b.getLsbD

/-- `v` widened to a lane and moved to byte `k`: zext_64(v) · 2^(8k) (R12, R110). -/
def placeByte (v : Byte) (k : Nat) : Lane :=
  (v.setWidth 64) <<< (8 * k)

/-- XorStateByte(i, v) on the lanes: v is XORed into byte i mod 8 of lane i div 8 (R110). S has no byte 200 or above;
there nothing is written, and no caller passes such an index (R110: i < R). -/
def xorStateByte (A : Lanes) (i : Nat) (v : Byte) : Lanes :=
  if h : i / 8 < 25 then A.set (i / 8) (A[i / 8] ^^^ placeByte v (i % 8)) else A

/-- The XOR of `bytes` onto the state bytes from index `i` on, in ascending order. -/
def xorBytesFrom (A : Lanes) (i : Nat) : List Byte → Lanes
  | [] => A
  | v :: vs => xorBytesFrom (xorStateByte A i v) (i + 1) vs

/-- "for i = 0 .. R−1: XorStateByte(i, P[i])" (R111). -/
def xorBlock (A : Lanes) (p : List Byte) : Lanes :=
  xorBytesFrom A 0 p

end Sys2Proof.Machine
end

