-- ==== Sys2Proof/Machine/Rom.lean ====
section
/-! DEFINITION. The two ROMs: RC (spec/10_state.md rule R30) and RHO (rule R31). They are constants of the hardware,
present from power-on and written by nothing (R62, R162). The values are the spec's tables, which the spec marks as its
own general knowledge (93_implementation_defined.md G2, G3). -/

namespace Sys2Proof.Machine

/-- RC[0..23], the round constants (R30). -/
def RC : Vector Lane 24 :=
  #v[0x0000000000000001#64, 0x0000000000008082#64, 0x800000000000808A#64, 0x8000000080008000#64,
     0x000000000000808B#64, 0x0000000080000001#64, 0x8000000080008081#64, 0x8000000000008009#64,
     0x000000000000008A#64, 0x0000000000000088#64, 0x0000000080008009#64, 0x000000008000000A#64,
     0x000000008000808B#64, 0x800000000000008B#64, 0x8000000000008089#64, 0x8000000000008003#64,
     0x8000000000008002#64, 0x8000000000000080#64, 0x000000000000800A#64, 0x800000008000000A#64,
     0x8000000080008081#64, 0x8000000000008080#64, 0x0000000080000001#64, 0x8000000080008008#64]

/-- RHO in the order of the lane number L = x + 5y (R31). -/
def RHO : Vector Nat 25 :=
  #v[0, 1, 62, 28, 27,
     36, 44, 6, 55, 20,
     3, 10, 43, 25, 39,
     41, 45, 15, 21, 8,
     18, 2, 61, 56, 14]

/-! ## The generating procedures of rules R30 and R31, against which the tables can be tested -/

/-- One step of the 8-bit linear feedback shift register (R30). -/
def lfsrStep (r : Nat) : Nat :=
  if r < 128 then r * 2 % 256 else (r * 2 % 256) ^^^ 0x71

/-- rc(t): bit 0 of the register, initially 0x01, after t mod 255 steps (R30). -/
def rcBit (t : Nat) : Bool :=
  ((List.range (t % 255)).foldl (fun r _ => lfsrStep r) 1).testBit 0

/-- Bit `b` of RC[ir] by the procedure: bit 2^j − 1 is rc(j + 7·ir) for j = 0..6, every other bit is 0 (R30). -/
def rcProcedureBit (ir b : Nat) : Bool :=
  (List.range 7).any fun j => b == 2 ^ j - 1 && rcBit (j + 7 * ir)

/-- The position (x,y) of the walk after `t` steps from (1,0): (x,y) <- (y, (2x + 3y) mod 5) (R31). -/
def rhoWalk : Nat → Fin 5 × Fin 5
  | 0 => (1, 0)
  | t + 1 => ((rhoWalk t).2, 2 * (rhoWalk t).1 + 3 * (rhoWalk t).2)

end Sys2Proof.Machine
end

