-- ==== Sys2Proof/Machine/Keccak.lean ====
section
/-! DEFINITION. The step mappings on the 25 lanes (spec/40_keccak_f.md rules R92 to R98). Each is a function from the
whole old state to the whole new one (rule R91); coordinates are reduced modulo 5, so x − 1 is x + 4 (rule R11). -/

namespace Sys2Proof.Machine

/-- C[x], the parity of column x over all five rows (R92; 90_conflicts.md C1). -/
def columnParity (A : Lanes) (x : Fin 5) : Lane :=
  lane A x 0 ^^^ lane A x 1 ^^^ lane A x 2 ^^^ lane A x 3 ^^^ lane A x 4

/-- THETA (R92). -/
def theta (A : Lanes) : Lanes :=
  ofCoords fun x y => lane A x y ^^^ (columnParity A (x + 4) ^^^ rol (columnParity A (x + 1)) 1)

/-- RHO (R93). -/
def rho (A : Lanes) : Lanes :=
  ofCoords fun x y => rol (lane A x y) RHO[laneNumber x y]

/-- PI (R94). -/
def pi (A : Lanes) : Lanes :=
  ofCoords fun x y => lane A (x + 3 * y) x

/-- CHI (R95). -/
def chi (A : Lanes) : Lanes :=
  ofCoords fun x y => lane A x y ^^^ ((~~~ lane A (x + 1) y) &&& lane A (x + 2) y)

/-- IOTA(ir) (R96). -/
def iota (A : Lanes) (ir : Fin 24) : Lanes :=
  A.set 0 (A[0] ^^^ RC[ir])

/-- ROUND(ir): theta, rho, pi, chi, iota in this order (R97). -/
def round (A : Lanes) (ir : Fin 24) : Lanes :=
  iota (chi (pi (rho (theta A)))) ir

/-- KECCAK_F as a function of the lanes alone: 24 rounds, ir ascending from 0 to 23 (R98). Irreducible, so that the
elaborator never runs 24 rounds while it compares two terms; the kernel evaluates it as any other definition. -/
@[irreducible] def keccakF (A : Lanes) : Lanes :=
  (List.finRange 24).foldl round A

end Sys2Proof.Machine
end

