-- ==== Sys2Proof/Machine/Operands.lean ====
section
/-! DEFINITION. The operand forms: the parameter sets and CREATE's reading of `d` (spec/00_scope.md rule R6,
spec/30_encoding.md rule R76). The assembly of imm32 and len32 from bytes is the encoding layer's (Decode.lean); the
coordinate and byte-index forms are in Machine/Lanes.lean. -/

namespace Sys2Proof

/-- `d`, the digest size in bits (R6, R24). -/
def DigestSize.bits : DigestSize → Nat
  | .d224 => 224
  | .d256 => 256
  | .d384 => 384
  | .d512 => 512

/-- "Rate values: 224→1152, 256→1088, 384→832, 512→576." (R6) -/
def DigestSize.rate : DigestSize → Nat
  | .d224 => 1152
  | .d256 => 1088
  | .d384 => 832
  | .d512 => 576

/-- "capacity = 1600 − rate" (R6). -/
def DigestSize.capacity (d : DigestSize) : Nat :=
  1600 - d.rate

/-- R, the bytes per block: rate/8 (R6). -/
def DigestSize.rateBytes (d : DigestSize) : Nat :=
  d.rate / 8

/-- DB, the digest bytes: d/8 (R6). -/
def DigestSize.digestBytes (d : DigestSize) : Nat :=
  d.bits / 8

namespace Machine

/-- CREATE's decoding of `d` into the parameter set: the match is on the exact integer value (R76). -/
def parameterSet (d : Int) : Option DigestSize :=
  if d = 224 then some .d224
  else if d = 256 then some .d256
  else if d = 384 then some .d384
  else if d = 512 then some .d512
  else none

end Machine
end Sys2Proof
end

