-- ==== Sys2Proof/Machine/Ops.lean ====
section
/-! DEFINITION. The shared operations over the state: responding, taking an error, initialising, the permutation with
its round index, absorbing, padding, squeezing, finalizing, and the hexadecimal form. The meanings of the instructions
are written over these. -/

namespace Sys2Proof.Machine

/-- CNT, the count of valid bytes in BUF (R26). -/
def State.cnt (s : State) : Nat :=
  s.buf.length

/-- R, a function of DSZ (R24). -/
def State.rateBytes (s : State) : Nat :=
  s.dsz.rateBytes

/-- DB, a function of DSZ (R24). -/
def State.digestBytes (s : State) : Nat :=
  s.dsz.digestBytes

/-! ## Responses and errors -/

/-- The response that ends a command is delivered (R13). -/
def State.respond (s : State) (r : Response) : State :=
  { s with responses := s.responses ++ [r] }

/-- "raise InvalidParameter" and "raise InvalidState": TAKING AN ERROR, the hardware's only exception. No architectural
state changes, the response is the error with no payload, nothing is saved and control goes nowhere: the engine is idle
again and decodes the next command (R147). There is no return operation and nothing to restore (R149). -/
def State.raise (s : State) (e : Error) : State :=
  s.respond (.error e)

/-- A command that its phase test guards: the test comes before everything else the command does (R146, R147), and a
failed one raises InvalidState (R142). -/
def State.inPhase (s : State) (accepted : Bool) (done : State) : State :=
  if accepted then done else s.raise .invalidState

/-! ## Initialisation -/

/-- DIG after CREATE or RESET: invalid, DB bytes of unspecified contents (R28, R121; log 2). -/
def invalidDigest (d : DigestSize) : List Byte :=
  (List.range d.digestBytes).map (Config.invalidDigestByte d)

/-- What a successful CREATE(d) and a successful RESET establish (R121, R124, R161). -/
def State.initialise (s : State) (d : DigestSize) : State :=
  { s with lanes := zeroLanes, buf := [], dsz := d, phase := .absorbing, dig := invalidDigest d }

/-! ## The permutation with its round index -/

/-- The round index takes its next value (R32, R98). -/
def State.startRound (s : State) (ir : Fin 24) : State :=
  { s with ir := some ir }

/-- One ROUND, its constant chosen by "the current round index" (R96, R97). Outside KECCAK_F there is none, and then
there is no round to run (R32). -/
def State.runRound (s : State) : State :=
  match s.ir with
  | some ir => { s with lanes := round s.lanes ir }
  | none => s

/-- KECCAK_F: "for ir = 0, 1, 2, ..., 23 in this order: ROUND(ir)" (R98); the index is not preserved (R32). -/
def State.permute (s : State) : State :=
  { (List.finRange 24).foldl (fun t ir => (t.startRound ir).runRound) s with ir := none }

/-! ## The sponge -/

/-- XorStateByte(i, v) (R110). -/
def State.xorByte (s : State) (i : Nat) (v : Byte) : State :=
  { s with lanes := xorStateByte s.lanes i v }

/-- ABSORB_BLOCK(P): the XOR of the block, then KECCAK_F (R111). It does not itself change BUF or CNT. -/
def State.absorb (s : State) (p : List Byte) : State :=
  ({ s with lanes := xorBlock s.lanes p }).permute

/-- BUF_APPEND(v): the byte is stored, and a full buffer is absorbed at once and cleared (R112). -/
def State.append (s : State) (v : Byte) : State :=
  if s.cnt + 1 = s.rateBytes then { s.absorb (s.buf ++ [v]) with buf := [] }
  else { s with buf := s.buf ++ [v] }

/-- UPDATE's loop: BUF_APPEND(data[j]) for j ascending (R122). -/
def State.absorbBytes (s : State) (data : List Byte) : State :=
  data.foldl State.append s

/-- Byte `i` of PAD's result, for a buffer of q bytes and a block of R bytes (R113): the buffered byte, 0x06 at q, zeros
after it, and 0x80 ORed into byte R-1 last. -/
def padByte (r : Nat) (buf : List Byte) (i : Nat) : Byte :=
  let b :=
    match buf[i]? with
    | some b => b
    | none => if i = buf.length then Config.suffixByte else 0x00#8
  if i = r - 1 then b ||| Config.finalBitByte else b

/-- PAD: "a pure function of (BUF[0..CNT−1], CNT, R)" (R113). -/
def padBlock (r : Nat) (buf : List Byte) : List Byte :=
  (List.range r).map (padByte r buf)

/-- SQUEEZE's result: the first DB bytes of the flattened state (R114). -/
def squeezeBytes (d : DigestSize) (A : Lanes) : List Byte :=
  (stateBytes A).take d.digestBytes

/-- SQUEEZE: DIG[i] <- S[i] for 0 ≤ i < DB (R114). -/
def State.squeeze (s : State) : State :=
  { s with dig := squeezeBytes s.dsz s.lanes }

/-- PAD's block is returned to the sequencer's interface (R113; log 8). -/
def State.returnBlock (s : State) (p : List Byte) : State :=
  { s with blocks := s.blocks ++ [p] }

/-- FINALIZE's effect: absorb PAD's block, CNT <- 0, SQUEEZE, PHASE <- Finalized (R123). -/
def State.finish (s : State) : State :=
  { ({ s.absorb (padBlock s.rateBytes s.buf) with buf := [] }).squeeze with phase := .finalized }

/-! ## The hexadecimal form (R125) -/

/-- H = "0123456789ABCDEF" as ASCII codes 0x30..0x39, 0x41..0x46 (R125). -/
def hexChar (n : Nat) : Byte :=
  if n < 10 then BitVec.ofNat 8 (0x30 + n) else BitVec.ofNat 8 (0x41 + (n - 10))

/-- Hex(bytes): two characters a byte, the high nibble first (R125). -/
def hexText (bytes : List Byte) : List Byte :=
  bytes.flatMap fun b => [hexChar (b.toNat / 16), hexChar (b.toNat % 16)]

end Sys2Proof.Machine
end

