-- ==== Sys2Proof/Machine/Engine.lean ====
section
/-! DEFINITION. Family 3, sha3_state_engine (spec/42_engine.md): the meanings of CREATE, UPDATE, FINALIZE, RESET, HEXENC
and HASH. Each ends in exactly one response (R13); an error is a next state in which only the response is new (R147). -/

namespace Sys2Proof.Machine

/-- CREATE d (R121): legal in every phase; an illegal d raises InvalidParameter. -/
def execCreate (d : Int) (s : State) : Host.Outcome State Fault Refusal :=
  match parameterSet d with
  | some p => .next ((s.initialise p).respond .ok)
  | none => .next (s.raise .invalidParameter)

/-- UPDATE data (R122). -/
def execUpdate (data : List Byte) (s : State) : Host.Outcome State Fault Refusal :=
  .next (s.inPhase s.isAbsorbing ((s.absorbBytes data).respond .ok))

/-- FINALIZE (R123): the response carries the digest. -/
def execFinalize (s : State) : Host.Outcome State Fault Refusal :=
  .next (s.inPhase s.isAbsorbing (s.finish.respond (.digest s.finish.dig)))

/-- RESET (R124): the digest size is kept. -/
def execReset (s : State) : Host.Outcome State Fault Refusal :=
  .next (s.inPhase s.isCreated ((s.initialise s.dsz).respond .ok))

/-- HEXENC (R125): nothing is written. -/
def execHexenc (s : State) : Host.Outcome State Fault Refusal :=
  .next (s.inPhase s.isFinalized (s.respond (.text (hexText s.dig))))

/-- HASH d, bytes (R126): CREATE, then UPDATE, then FINALIZE, whose result is HASH's; an error of CREATE is returned and
nothing more is done. One response (log 10). -/
def execHash (d : Int) (bytes : List Byte) (s : State) : Host.Outcome State Fault Refusal :=
  match parameterSet d with
  | some p =>
    .next ((((s.initialise p).absorbBytes bytes).finish).respond
      (.digest (((s.initialise p).absorbBytes bytes).finish).dig))
  | none => .next (s.raise .invalidParameter)

end Sys2Proof.Machine
end

