-- ==== Sys2Proof/Machine/Permutation.lean ====
section
/-! DEFINITION. Family 1, keccak_f_1600_permutation (spec/40_keccak_f.md): the meanings of THETA, RHO, PI, CHI, IOTA,
ROUND and KECCAK_F. They read and write the lanes only, have no flags and no errors, and run in every phase. -/

namespace Sys2Proof.Machine

/-- THETA (R92). -/
def execTheta (s : State) : Host.Outcome State Fault Refusal :=
  .next { s with lanes := theta s.lanes }

/-- RHO (R93). -/
def execRho (s : State) : Host.Outcome State Fault Refusal :=
  .next { s with lanes := rho s.lanes }

/-- PI (R94). -/
def execPi (s : State) : Host.Outcome State Fault Refusal :=
  .next { s with lanes := pi s.lanes }

/-- CHI (R95). -/
def execChi (s : State) : Host.Outcome State Fault Refusal :=
  .next { s with lanes := chi s.lanes }

/-- IOTA ir (R96). -/
def execIota (ir : Fin 24) (s : State) : Host.Outcome State Fault Refusal :=
  .next { s with lanes := iota s.lanes ir }

/-- ROUND ir (R97). -/
def execRound (ir : Fin 24) (s : State) : Host.Outcome State Fault Refusal :=
  .next { s with lanes := round s.lanes ir }

/-- KECCAK_F (R98). -/
def execKeccakF (s : State) : Host.Outcome State Fault Refusal :=
  .next s.permute

end Sys2Proof.Machine
end

