-- ==== Sys2Proof/Machine/Sponge.lean ====
section
/-! DEFINITION. Family 2, sponge_absorb_squeeze (spec/41_sponge.md): the meanings of XOR_STATE_BYTE, ABSORB_BLOCK,
BUF_APPEND, PAD and SQUEEZE. They raise no errors and test no phase (R144); where the operands or CNT are outside what
the rule asks for, the rule gives no effect and the machine stops by name (log 7). -/

namespace Sys2Proof.Machine

/-- XOR_STATE_BYTE i v, with 0 ≤ i < R (R110). -/
def execXorStateByte (i : Fin 200) (v : Byte) (s : State) : Host.Outcome State Fault Refusal :=
  if i.val < s.rateBytes then .next (s.xorByte i.val v) else .fault (.indexOutsideRate i)

/-- ABSORB_BLOCK P, with P "of exactly R bytes" (R111). -/
def execAbsorbBlock (p : List Byte) (s : State) : Host.Outcome State Fault Refusal :=
  if p.length = s.rateBytes then .next (s.absorb p) else .fault (.notOneBlock p.length)

/-- BUF_APPEND v, with 0 ≤ CNT ≤ R−1 (R112). -/
def execBufAppend (v : Byte) (s : State) : Host.Outcome State Fault Refusal :=
  if s.cnt < s.rateBytes then .next (s.append v) else .fault .bufferFull

/-- PAD, with 0 ≤ CNT ≤ R−1 (R113): no state of the instance changes, the block is the result. -/
def execPad (s : State) : Host.Outcome State Fault Refusal :=
  if s.cnt < s.rateBytes then .next (s.returnBlock (padBlock s.rateBytes s.buf)) else .fault .bufferFull

/-- SQUEEZE (R114). -/
def execSqueeze (s : State) : Host.Outcome State Fault Refusal :=
  .next s.squeeze

end Sys2Proof.Machine
end

