-- ==== Sys2Proof/Machine/Dispatch.lean ====
section
/-! DEFINITION. One arm per constructor of Instr, one line each. -/

namespace Sys2Proof.Machine

def exec (i : Instr) (s : State) : Host.Outcome State Fault Refusal :=
  match i with
  | .create d => Sys2Proof.Machine.execCreate d s
  | .update data => Sys2Proof.Machine.execUpdate data s
  | .finalize => Sys2Proof.Machine.execFinalize s
  | .reset => Sys2Proof.Machine.execReset s
  | .hexenc => Sys2Proof.Machine.execHexenc s
  | .theta => Sys2Proof.Machine.execTheta s
  | .rho => Sys2Proof.Machine.execRho s
  | .pi => Sys2Proof.Machine.execPi s
  | .chi => Sys2Proof.Machine.execChi s
  | .iota ir => Sys2Proof.Machine.execIota ir s
  | .round ir => Sys2Proof.Machine.execRound ir s
  | .keccakF => Sys2Proof.Machine.execKeccakF s
  | .xorStateByte ix v => Sys2Proof.Machine.execXorStateByte ix v s
  | .absorbBlock p => Sys2Proof.Machine.execAbsorbBlock p s
  | .bufAppend v => Sys2Proof.Machine.execBufAppend v s
  | .pad => Sys2Proof.Machine.execPad s
  | .squeeze => Sys2Proof.Machine.execSqueeze s
  | .hash d bytes => Sys2Proof.Machine.execHash d bytes s

end Sys2Proof.Machine
end

