-- ==== Sys2Proof/WellFormed.lean ====
section
/-! DEFINITION. Which instructions the encodings of spec/30_encoding.md can carry. The meanings do not rest on these
checks: a model "may take the operand as an unbounded list and treat the bound as the encoding layer's"
(92_eei_decisions.md D24, D25). -/

namespace Sys2Proof

/-- d fits CREATE's operand field: 32 bits, two's complement (R8, R74). -/
def fitsImm32 (d : Int) : Bool :=
  decide (-2147483648 ≤ d) && decide (d < 2147483648)

/-- The operands an encoding can carry: imm32 of CREATE and HASH (R74), len32 of UPDATE (R75), an index of some rate
region for XOR_STATE_BYTE (R59: the largest R is 144), a block of one of the four sizes for ABSORB_BLOCK (R6, R111). -/
def Instr.wellFormed : Instr → Bool
  | .create d => fitsImm32 d
  | .update data => decide (data.length ≤ Config.lenMax)
  | .finalize => true
  | .reset => true
  | .hexenc => true
  | .theta => true
  | .rho => true
  | .pi => true
  | .chi => true
  | .iota _ => true
  | .round _ => true
  | .keccakF => true
  | .xorStateByte i _ => decide (i.val < 144)
  | .absorbBlock p => decide (p.length ∈ Config.blockSizes)
  | .bufAppend _ => true
  | .pad => true
  | .squeeze => true
  | .hash d _ => fitsImm32 d

end Sys2Proof
end

