-- ==== Sys2Proof/Decode.lean ====
section
/-! DEFINITION. The encoding layer (spec/30_encoding.md): a decoder, total on any bytes at either interface and
rejecting by name; the encoder; the responses' bytes; and the host's view of a row of the opcode table. -/

namespace Sys2Proof

/-! ## Codes (R77, R78) -/

namespace Code
def create : Byte := 0x01#8
def update : Byte := 0x02#8
def finalize : Byte := 0x03#8
def reset : Byte := 0x04#8
def hexenc : Byte := 0x05#8
def theta : Byte := 0x10#8
def rho : Byte := 0x11#8
def pi : Byte := 0x12#8
def chi : Byte := 0x13#8
def iota : Byte := 0x14#8
def round : Byte := 0x15#8
def keccakF : Byte := 0x16#8
def xorStateByte : Byte := 0x17#8
def absorbBlock : Byte := 0x18#8
def bufAppend : Byte := 0x19#8
def pad : Byte := 0x1A#8
def squeeze : Byte := 0x1B#8
end Code

/-- Why bytes are no instruction. -/
inductive DecodeError where
  /-- The stream ends inside a command, or is empty (R80). -/
  | truncated
  /-- A reserved command code stands first (R79). -/
  | reservedCode (code : Byte)
  /-- A format M word whose code names no micro-operation (R78). -/
  | unknownSelect (code : Byte)
  /-- A format M word whose operands are not those its row lists (R78). -/
  | badSelectOperands (code : Byte)
  deriving DecidableEq, Repr

/-! ## Operand assembly (R74, R75) -/

/-- Four bytes, least significant first, as an unsigned number (R74, R75). -/
def le32 (b0 b1 b2 b3 : Byte) : Nat :=
  b0.toNat + 256 * b1.toNat + 65536 * b2.toNat + 16777216 * b3.toNat

/-- sext_32: the two's complement reading of an unsigned 32-bit number (R12, R74). -/
def sext32 (u : Nat) : Int :=
  if u < 2147483648 then (u : Int) else (u : Int) - 4294967296

/-- Byte `k` of a number, byte 0 least significant. -/
def byteOf (u k : Nat) : Byte :=
  BitVec.ofNat 8 (u / 256 ^ k)

/-- The four bytes of a 32-bit number, least significant first (R72, R73). -/
def le32Bytes (u : Nat) : List Byte :=
  [byteOf u 0, byteOf u 1, byteOf u 2, byteOf u 3]

/-- The 32-bit two's complement pattern of an integer (R74). -/
def imm32Of (d : Int) : Nat :=
  (d % 4294967296).toNat

/-! ## Decoding -/

/-- One command of the stream, and the bytes after it (R82): the first byte tells the length; an UPDATE is decoded
only when all its data bytes are present (R80). -/
def decodeCommand : List Byte → Except DecodeError (Instr × List Byte)
  | [] => .error .truncated
  | code :: rest =>
    if code = Code.create then
      match rest with
      | b0 :: b1 :: b2 :: b3 :: tail => .ok (.create (sext32 (le32 b0 b1 b2 b3)), tail)
      | _ => .error .truncated
    else if code = Code.update then
      match rest with
      | b0 :: b1 :: b2 :: b3 :: tail =>
        if tail.length < le32 b0 b1 b2 b3 then .error .truncated
        else .ok (.update (tail.take (le32 b0 b1 b2 b3)), tail.drop (le32 b0 b1 b2 b3))
      | _ => .error .truncated
    else if code = Code.finalize then .ok (.finalize, rest)
    else if code = Code.reset then .ok (.reset, rest)
    else if code = Code.hexenc then .ok (.hexenc, rest)
    else .error (.reservedCode code)

/-- A micro-operation that lists no operand but the machine's own state takes no operand bytes. -/
def selectPlain (code : Byte) (i : Instr) : List Byte → Except DecodeError Instr
  | [] => .ok i
  | _ :: _ => .error (.badSelectOperands code)

/-- A micro-operation with a round index: one byte, 0..23 (R78, R96). -/
def selectRound (code : Byte) (mk : Fin 24 → Instr) : List Byte → Except DecodeError Instr
  | [b] => if h : b.toNat < 24 then .ok (mk ⟨b.toNat, h⟩) else .error (.badSelectOperands code)
  | _ => .error (.badSelectOperands code)

/-- XOR_STATE_BYTE's operands: the index byte, below the largest R, then the value byte (R78, R110). -/
def selectXorByte (code : Byte) : List Byte → Except DecodeError Instr
  | [i, v] =>
    if h : i.toNat < 144 then .ok (.xorStateByte ⟨i.toNat, Nat.lt_trans h (by decide)⟩ v)
    else .error (.badSelectOperands code)
  | _ => .error (.badSelectOperands code)

/-- ABSORB_BLOCK's operand: a block of one of the four sizes (R6, R111). -/
def selectBlock (code : Byte) (p : List Byte) : Except DecodeError Instr :=
  if p.length ∈ Config.blockSizes then .ok (.absorbBlock p) else .error (.badSelectOperands code)

/-- BUF_APPEND's operand: one byte (R112). -/
def selectByte (code : Byte) : List Byte → Except DecodeError Instr
  | [v] => .ok (.bufAppend v)
  | _ => .error (.badSelectOperands code)

/-- The micro-operation a format M word names (R78). -/
def decodeSelect (m : MicroWord) : Except DecodeError Instr :=
  if m.code = Code.theta then selectPlain m.code .theta m.operands
  else if m.code = Code.rho then selectPlain m.code .rho m.operands
  else if m.code = Code.pi then selectPlain m.code .pi m.operands
  else if m.code = Code.chi then selectPlain m.code .chi m.operands
  else if m.code = Code.iota then selectRound m.code .iota m.operands
  else if m.code = Code.round then selectRound m.code .round m.operands
  else if m.code = Code.keccakF then selectPlain m.code .keccakF m.operands
  else if m.code = Code.xorStateByte then selectXorByte m.code m.operands
  else if m.code = Code.absorbBlock then selectBlock m.code m.operands
  else if m.code = Code.bufAppend then selectByte m.code m.operands
  else if m.code = Code.pad then selectPlain m.code .pad m.operands
  else if m.code = Code.squeeze then selectPlain m.code .squeeze m.operands
  else .error (.unknownSelect m.code)

/-- The decoder: the instruction, and the bytes of the stream after it (none at the sequencer's interface). -/
def decode : Packet → Except DecodeError (Instr × List Byte)
  | .host bytes => decodeCommand bytes
  | .micro m => (decodeSelect m).map fun i => (i, [])

/-- All the commands of a finite stream; `fuel` bounds their number. -/
def decodeStreamFuel : Nat → List Byte → Except DecodeError (List Instr)
  | _, [] => .ok []
  | 0, _ :: _ => .error .truncated
  | fuel + 1, b :: bs =>
    match decodeCommand (b :: bs) with
    | .error e => .error e
    | .ok (i, rest) => (decodeStreamFuel fuel rest).map fun is => i :: is

/-- All the commands of a finite stream (R70): every command has at least one byte. -/
def decodeStream (bytes : List Byte) : Except DecodeError (List Instr) :=
  decodeStreamFuel bytes.length bytes

/-! ## Encoding -/

/-- The bytes of CREATE d (R72). -/
def encodeCreate (d : Int) : List Byte :=
  Code.create :: le32Bytes (imm32Of d)

/-- The bytes of UPDATE data (R73). -/
def encodeUpdate (data : List Byte) : List Byte :=
  Code.update :: (le32Bytes data.length ++ data)

/-- A message cut into pieces of at most LEN_MAX bytes, `fuel` cuts at most. R85 says "several UPDATEs" and not where the
message is cut: that every piece but the last has exactly LEN_MAX bytes is a DESIGN CHOICE, log 18. -/
def cutMessage : Nat → List Byte → List (List Byte)
  | 0, bytes => [bytes]
  | fuel + 1, bytes =>
    if bytes.length ≤ Config.lenMax then [bytes]
    else bytes.take Config.lenMax :: cutMessage fuel (bytes.drop Config.lenMax)

/-- The operands of the UPDATE commands that send a message: "several UPDATEs if len(bytes) > LEN_MAX" (R85);
where it is cut is log 18's choice. -/
def updatePieces (bytes : List Byte) : List (List Byte) :=
  cutMessage (bytes.length / Config.lenMax) bytes

/-- HASH's expansion: CREATE d, then UPDATE bytes, then FINALIZE (R85), for every d: for an illegal one log 19's choice. -/
def hashExpansion (d : Int) (bytes : List Byte) : List Instr :=
  .create d :: ((updatePieces bytes).map Instr.update ++ [.finalize])

/-- The encoding of an instruction at the interface that carries it (R71 to R73, R78). HASH has no code of its own: it
is "the concatenated encodings of CREATE d, UPDATE bytes, FINALIZE" (opcode_table.json, R85). For an illegal d too it holds
all three, though R85 says that after CREATE's error the other two are not issued: a DESIGN CHOICE, log 19. -/
def encode : Instr → Packet
  | .create d => .host (encodeCreate d)
  | .update data => .host (encodeUpdate data)
  | .finalize => .host [Code.finalize]
  | .reset => .host [Code.reset]
  | .hexenc => .host [Code.hexenc]
  | .theta => .micro ⟨Code.theta, []⟩
  | .rho => .micro ⟨Code.rho, []⟩
  | .pi => .micro ⟨Code.pi, []⟩
  | .chi => .micro ⟨Code.chi, []⟩
  | .iota ir => .micro ⟨Code.iota, [BitVec.ofNat 8 ir.val]⟩
  | .round ir => .micro ⟨Code.round, [BitVec.ofNat 8 ir.val]⟩
  | .keccakF => .micro ⟨Code.keccakF, []⟩
  | .xorStateByte i v => .micro ⟨Code.xorStateByte, [BitVec.ofNat 8 i.val, v]⟩
  | .absorbBlock p => .micro ⟨Code.absorbBlock, p⟩
  | .bufAppend v => .micro ⟨Code.bufAppend, [v]⟩
  | .pad => .micro ⟨Code.pad, []⟩
  | .squeeze => .micro ⟨Code.squeeze, []⟩
  | .hash d bytes =>
    .host (encodeCreate d ++ ((updatePieces bytes).map encodeUpdate).flatten ++ [Code.finalize])

/-- The bytes a packet puts on the host's stream (none for the sequencer's interface). -/
def Packet.hostBytes : Packet → List Byte
  | .host bytes => bytes
  | .micro _ => []

/-! ## Responses (R83) -/

/-- The status byte of an error (R83, R143). -/
def statusOf : Error → Byte
  | .invalidParameter => 0x01#8
  | .invalidState => 0x02#8

/-- A response's bytes: one status byte, then the payload (R83). -/
def encodeResponse : Response → List Byte
  | .ok => [0x00#8]
  | .digest bytes => 0x00#8 :: bytes
  | .text chars => 0x00#8 :: chars
  | .error e => [statusOf e]

/-! ## A row of the opcode table -/

/-- The select codes of format M: 0x10..0x1B (R78). -/
def isSelectCode (code : Byte) : Bool :=
  decide (0x10 ≤ code.toNat) && decide (code.toNat ≤ 0x1B)

/-- How many operand bytes a format M word of this code holds (R78); for ABSORB_BLOCK the R of the machine right
after reset, DSZ being 512 there (log 1, log 17). -/
def selectOperandLength (code : Byte) : Nat :=
  if code = Code.iota then 1
  else if code = Code.round then 1
  else if code = Code.xorStateByte then 2
  else if code = Code.absorbBlock then 72
  else if code = Code.bufAppend then 1
  else 0

/-- `bytes` with zero bytes after them up to the length `n`. -/
def zeroExtend (n : Nat) (bytes : List Byte) : List Byte :=
  bytes ++ List.replicate (n - bytes.length) 0x00#8

/-- The bytes of a host command whose first bytes are given and whose other bytes are zero (R82). -/
def zeroExtendCommand (bytes : List Byte) : List Byte :=
  match bytes with
  | [] => []
  | code :: _ =>
    if code = Code.create then zeroExtend 5 bytes
    else if code = Code.update then
      match zeroExtend 5 bytes with
      | _ :: b0 :: b1 :: b2 :: b3 :: _ => zeroExtend (5 + le32 b0 b1 b2 b3) bytes
      | short => short
    else bytes

/-- The encoding that a row of spec/opcode_table.json numbers as the word `w` of `nbits` bits, bit 0 being the least
significant bit of the first byte; the bits above `nbits` are zero. A select code stands at the sequencer's interface,
every other code in the host's stream. -/
def tablePacket (nbits w : Nat) : Packet :=
  match (List.range (nbits / 8)).map (byteOf w) with
  | [] => .host []
  | code :: rest =>
    if isSelectCode code then .micro ⟨code, zeroExtend (selectOperandLength code) rest⟩
    else .host (zeroExtendCommand (code :: rest))

/-- The instruction the decoder reads from a row's word. -/
def decodeTableWord (nbits w : Nat) : Option Instr :=
  match decode (tablePacket nbits w) with
  | .ok (i, _) => some i
  | .error _ => none

end Sys2Proof
end

