-- ==== Sys2Proof/Machine/Fetch.lean ====
section
/-! DEFINITION. What the engine decodes next (spec/30_encoding.md rules R70, R78 to R82) and how it consumes it. -/

namespace Sys2Proof.Machine

/-- What a step finds at the machine's interfaces. -/
inductive Fetched where
  /-- No command is presented: the engine is idle (R160). -/
  | idle
  /-- What is presented has no meaning. -/
  | rejected (r : Refusal)
  /-- An instruction, and the state in which its encoding is consumed. -/
  | instruction (i : Instr) (s : State)
  deriving DecidableEq, Repr

/-- The refusal of what the decoder rejects (R79, R80). -/
def refusalOf : DecodeError → Refusal
  | .truncated => .truncatedCommand
  | .reservedCode c => .reservedCode c
  | .unknownSelect c => .unknownSelect c
  | .badSelectOperands c => .badSelectOperands c

/-- A micro-operation at the sequencer's interface runs first, as it belongs to the command in hand; otherwise the next
command of the stream is decoded (R70). -/
def State.fetch (s : State) : Fetched :=
  match s.select with
  | some m =>
    match decode (.micro m) with
    | .ok (i, _) => .instruction i { s with select := none }
    | .error e => .rejected (refusalOf e)
  | none =>
    match s.stream with
    | [] => .idle
    | b :: bs =>
      match decode (.host (b :: bs)) with
      | .ok (i, rest) => .instruction i { s with stream := rest }
      | .error e => .rejected (refusalOf e)

/-- The state in which the packet stands where the engine decodes next: at the sequencer's interface, or at the front of
the stream with nothing at that interface. -/
def State.present (s : State) : Packet → State
  | .micro m => { s with select := some m }
  | .host bytes => { s with stream := bytes ++ s.stream, select := none }

end Sys2Proof.Machine
end

