-- ==== Sys2Proof/Machine/Step.lean ====
section
/-! DEFINITION. One step: what is presented is decoded and consumed, then executed to completion (spec/20_memory.md rule
R57, spec/30_encoding.md rule R70). An idle engine waits (log 9). -/

namespace Sys2Proof.Machine

def step (s : State) : Host.Outcome State Fault Refusal :=
  match s.fetch with
  | .idle => .next s
  | .rejected r => .refused r
  | .instruction i t => exec i t

/-- `s` with the row's word presented so that the next step runs it (log 14, 17). -/
def State.withFetchWord (s : State) (nbits w : Nat) : State :=
  s.present (tablePacket nbits w)

end Sys2Proof.Machine
end

