-- ==== Sys2Proof/Machine/Listing.lean ====
section
/-! DEFINITION. The listing form of command streams (spec/30_encoding.md rule R84, form (b)), one command per line: what
a line stands for, and a line for a command. The pseudo-operation is written HASH d, bytes as in rule R85. Log 16. -/

namespace Sys2Proof.Machine

/-! ## Reading a line -/

/-- The value of a hexadecimal digit (upper case). -/
def hexDigitValue (c : Char) : Option Nat :=
  if '0' ≤ c ∧ c ≤ '9' then some (c.toNat - 48)
  else if 'A' ≤ c ∧ c ≤ 'F' then some (c.toNat - 55)
  else none

/-- A byte in two-digit hexadecimal. -/
def readByte : List Char → Option Byte
  | [h, l] =>
    match hexDigitValue h, hexDigitValue l with
    | some a, some b => some (BitVec.ofNat 8 (16 * a + b))
    | _, _ => none
  | _ => none

/-- A number in decimal, at least one digit. -/
def readNat : List Char → Option Nat
  | [] => none
  | cs => if cs.all (fun c => decide ('0' ≤ c ∧ c ≤ '9')) then some (cs.foldl (fun n c => 10 * n + (c.toNat - 48)) 0) else none

/-- An integer in decimal. -/
def readInt : List Char → Option Int
  | '-' :: cs => (readNat cs).map fun n => -(n : Int)
  | cs => (readNat cs).map fun n => (n : Int)

/-- The line without its comment: a `;` outside a quoted string starts one. -/
def dropComment : Bool → List Char → List Char
  | _, [] => []
  | quoted, '"' :: cs => '"' :: dropComment (!quoted) cs
  | false, ';' :: _ => []
  | quoted, c :: cs => c :: dropComment quoted cs

/-- The line without the spaces at its two ends. -/
def trimSpaces (cs : List Char) : List Char :=
  (((cs.dropWhile (· == ' ')).reverse).dropWhile (· == ' ')).reverse

/-- The words of a text, which single spaces or more separate. -/
def wordsOf : List Char → List (List Char)
  | [] => []
  | ' ' :: cs => wordsOf cs
  | [c] => [[c]]
  | c :: ' ' :: cs => [c] :: wordsOf cs
  | c :: d :: cs =>
    match wordsOf (d :: cs) with
    | w :: ws => (c :: w) :: ws
    | [] => [[c]]

/-- An operand of UPDATE: a double-quoted ASCII string, n*XX, or bytes in two-digit hexadecimal separated by spaces. -/
def readBytes : List Char → Option (List Byte)
  | '"' :: cs =>
    match cs.reverse with
    | '"' :: rs => if rs.contains '"' then none else some (rs.reverse.map fun c => BitVec.ofNat 8 c.toNat)
    | _ => none
  | cs =>
    match cs.span (· != '*') with
    | (n, '*' :: b) =>
      match readNat n, readByte b with
      | some k, some v => some (List.replicate k v)
      | _, _ => none
    | _ => match wordsOf cs with
      | [] => none
      | ws => ws.mapM readByte

/-- The command that a line of a listing stands for; none for an empty line or one that is no command. -/
def readLine (line : List Char) : Option Instr :=
  let cs := trimSpaces (dropComment false line)
  let word := cs.takeWhile (· != ' ')
  let operand := trimSpaces (cs.dropWhile (· != ' '))
  if word = ['C', 'R', 'E', 'A', 'T', 'E'] then (readInt operand).map .create
  else if word = ['U', 'P', 'D', 'A', 'T', 'E'] then (readBytes operand).map .update
  else if word = ['F', 'I', 'N', 'A', 'L', 'I', 'Z', 'E'] ∧ operand = [] then some .finalize
  else if word = ['R', 'E', 'S', 'E', 'T'] ∧ operand = [] then some .reset
  else if word = ['H', 'E', 'X', 'E', 'N', 'C'] ∧ operand = [] then some .hexenc
  else if word = ['H', 'A', 'S', 'H'] then
    match operand.span (· != ',') with
    | (d, ',' :: bytes) =>
      match readInt (trimSpaces d), readBytes (trimSpaces bytes) with
      | some n, some m => some (.hash n m)
      | _, _ => none
    | _ => none
  else none

/-! ## Writing a line -/

/-- A hexadecimal digit, upper case. -/
def hexDigitChar (n : Nat) : Char :=
  Char.ofNat (if n < 10 then 48 + n else 55 + n)

/-- An integer in decimal. -/
def writeInt : Int → List Char
  | .ofNat n => Nat.toDigits 10 n
  | .negSucc n => '-' :: Nat.toDigits 10 (n + 1)

/-- Bytes in two-digit hexadecimal separated by spaces; the empty operand is written as the empty string. -/
def writeBytes : List Byte → List Char
  | [] => ['"', '"']
  | [b] => [hexDigitChar (b.toNat / 16), hexDigitChar (b.toNat % 16)]
  | b :: bs => hexDigitChar (b.toNat / 16) :: hexDigitChar (b.toNat % 16) :: ' ' :: writeBytes bs

/-- The line of a command; none for a micro-operation, which no listing can name. -/
def writeLine : Instr → Option (List Char)
  | .create d => some (['C', 'R', 'E', 'A', 'T', 'E', ' '] ++ writeInt d)
  | .update data => some (['U', 'P', 'D', 'A', 'T', 'E', ' '] ++ writeBytes data)
  | .finalize => some ['F', 'I', 'N', 'A', 'L', 'I', 'Z', 'E']
  | .reset => some ['R', 'E', 'S', 'E', 'T']
  | .hexenc => some ['H', 'E', 'X', 'E', 'N', 'C']
  | .hash d bytes => some (['H', 'A', 'S', 'H', ' '] ++ writeInt d ++ [',', ' '] ++ writeBytes bytes)
  | .theta => none
  | .rho => none
  | .pi => none
  | .chi => none
  | .iota _ => none
  | .round _ => none
  | .keccakF => none
  | .xorStateByte _ _ => none
  | .absorbBlock _ => none
  | .bufAppend _ => none
  | .pad => none
  | .squeeze => none

end Sys2Proof.Machine
end

