-- ==== Sys2Proof/Machine/Instances.lean ====
section
/-! DEFINITION. Several engine instances (spec/60_exceptions.md rule R152). N_INST is an argument of the model, default 1
(spec/00_scope.md rule R8); the machine of Machine/Core.lean is one instance. -/

namespace Sys2Proof.Machine

/-- `n` instances, each with its own complete state, command stream and response stream (R152). They share the two ROMs,
which are constants. -/
structure Instances (n : Nat := 1) where
  engines : Vector State n
  deriving DecidableEq, Repr

/-- All instances after power-on. -/
def powerOnAll (n : Nat := 1) : Instances n :=
  ⟨Vector.replicate n State.reset⟩

/-- One step of instance `k`; which instance moves next is the hosts' choice, and every interleaving is allowed (R152). -/
def stepInstance {n : Nat} (k : Fin n) (m : Instances n) : Host.Outcome (Instances n) Fault Refusal :=
  match step m.engines[k] with
  | .next s => .next ⟨m.engines.set k s⟩
  | .fault f => .fault f
  | .refused r => .refused r

end Sys2Proof.Machine
end

