-- ==== Sys2Proof/Machine/Reference.lean ====
section
/-! DEFINITION. The hash function that the engine's commands compute, as a function of the message: "the first DB bytes
of the state after absorbing bytes ++ padding block by block into the zero state" (spec/42_engine.md rule R126). It is
written over whole messages and whole lanes (rule R116), without the buffer and without the engine's state. -/

namespace Sys2Proof.Machine

/-- A lane from its bytes, least significant first: P[8L] + 2^8·P[8L+1] + ... (R22, R116). -/
def laneOfBytes : List Byte → Lane
  | [] => 0#64
  | b :: bs => b.setWidth 64 ||| (laneOfBytes bs <<< 8)

/-- The XOR of a block onto the lanes, a lane at a time (R116). -/
def xorBlockLanes (A : Lanes) (p : List Byte) : Lanes :=
  ofCoords fun x y => lane A x y ^^^ laneOfBytes ((p.drop (8 * (laneNumber x y).val)).take 8)

/-- The padding of a message whose last block holds q bytes of it (R113: the two cases spelled out). -/
def padding (r q : Nat) : List Byte :=
  if q = r - 1 then [0x86#8] else 0x06#8 :: (List.replicate (r - q - 2) 0x00#8 ++ [0x80#8])

/-- The message followed by its padding: a whole number of blocks. -/
def padMessage (r : Nat) (m : List Byte) : List Byte :=
  m ++ padding r (m.length % r)

/-- The successive r-byte pieces of a sequence; a shorter rest is left out. -/
def wholeBlocks (r : Nat) (m : List Byte) : List (List Byte) :=
  (List.range (m.length / r)).map fun k => (m.drop (k * r)).take r

/-- The bytes after the last whole block. -/
def lastBytes (r : Nat) (m : List Byte) : List Byte :=
  m.drop (m.length / r * r)

/-- The blocks absorbed one after another: XOR, then KECCAK_F (R111). -/
def absorbBlocks (A : Lanes) (blocks : List (List Byte)) : Lanes :=
  blocks.foldl (fun B p => keccakF (xorBlockLanes B p)) A

/-- SHA3-d(m) (R126). -/
def sha3 (d : DigestSize) (m : List Byte) : List Byte :=
  squeezeBytes d (absorbBlocks zeroLanes (wholeBlocks d.rateBytes (padMessage d.rateBytes m)))

end Sys2Proof.Machine
end

