-- ==== Sys2Proof/Safety.lean ====
section
/-! DEFINITION. What counts as a sound state and a safe run, in the terms the statements use: the invariants between
commands (spec/10_state.md rule R38), what two states must share to be the same instance, and what a host command is. -/

namespace Sys2Proof.Machine

/-- The storage of an instance is within its bounds (R25, R26, R28, R32, R171): CNT ≤ R−1, DIG has DB bytes, and no round
index outlives KECCAK_F. Every operation keeps it, the micro-operations included. -/
structure StorageBounds (s : State) : Prop where
  cnt_lt : s.cnt < s.rateBytes
  dig_length : s.dig.length = s.digestBytes
  ir_none : s.ir = none

/-- R38 between host commands: once an instance is created, its storage is within its bounds; in Finalized the buffer is
empty and the digest is the first DB bytes of the state; and always no micro-operation is pending and no round index is
live (R32). In Uncreated nothing is asked of A, BUF, CNT, DSZ and DIG (item 1). -/
structure IdleInv (s : State) : Prop where
  created_bounds : s.phase ≠ .uncreated → StorageBounds s
  ir_none : s.ir = none
  select_none : s.select = none
  finalized_empty : s.phase = .finalized → s.buf = []
  finalized_digest : s.phase = .finalized → s.dig = squeezeBytes s.dsz s.lanes

/-- R38 item 5, the sponge invariant: the instance, of size `d`, has absorbed the message `m` since CREATE or RESET. -/
structure HasAbsorbed (d : DigestSize) (m : List Byte) (s : State) : Prop where
  phase_absorbing : s.phase = .absorbing
  size : s.dsz = d
  lanes_eq : s.lanes = absorbBlocks zeroLanes (wholeBlocks d.rateBytes m)
  buf_eq : s.buf = lastBytes d.rateBytes m

/-- The architectural state of an instance (R20), apart from the interfaces. -/
structure SameInstance (s t : State) : Prop where
  lanes : s.lanes = t.lanes
  buf : s.buf = t.buf
  dsz : s.dsz = t.dsz
  phase : s.phase = t.phase
  dig : s.dig = t.dig
  ir : s.ir = t.ir

/-- The two interfaces of an instance stand alike. -/
structure SameInterfaces (s t : State) : Prop where
  stream : s.stream = t.stream
  responses : s.responses = t.responses
  select : s.select = t.select
  blocks : s.blocks = t.blocks

/-- The operations that the host can request: the five commands and the pseudo-operation (R77, R85). -/
def isHostCommand : Instr → Bool
  | .create _ => true
  | .update _ => true
  | .finalize => true
  | .reset => true
  | .hexenc => true
  | .hash _ _ => true
  | .theta => false
  | .rho => false
  | .pi => false
  | .chi => false
  | .iota _ => false
  | .round _ => false
  | .keccakF => false
  | .xorStateByte _ _ => false
  | .absorbBlock _ => false
  | .bufAppend _ => false
  | .pad => false
  | .squeeze => false

/-- Instructions executed one after another, up to the first fault or refusal. -/
def execAll : List Instr → State → Host.Outcome State Fault Refusal
  | [], s => .next s
  | i :: is, s =>
    match exec i s with
    | .next t => execAll is t
    | .fault f => .fault f
    | .refused r => .refused r

/-- The columns of the write matrix that are state (R36); BUF and CNT are one field. -/
inductive Column where
  | lanes
  | buf
  | dsz
  | phase
  | dig
  deriving DecidableEq, Repr

/-- The write matrix (R36): what each operation may write, W, Z and "invalidated" alike. HASH writes what its three
commands write. -/
def writeMatrix : Instr → List Column
  | .theta => [.lanes]
  | .rho => [.lanes]
  | .pi => [.lanes]
  | .chi => [.lanes]
  | .iota _ => [.lanes]
  | .round _ => [.lanes]
  | .keccakF => [.lanes]
  | .xorStateByte _ _ => [.lanes]
  | .absorbBlock _ => [.lanes]
  | .bufAppend _ => [.lanes, .buf]
  | .pad => []
  | .squeeze => [.dig]
  | .create _ => [.lanes, .buf, .dsz, .phase, .dig]
  | .update _ => [.lanes, .buf]
  | .finalize => [.lanes, .buf, .phase, .dig]
  | .reset => [.lanes, .buf, .phase, .dig]
  | .hexenc => []
  | .hash _ _ => [.lanes, .buf, .dsz, .phase, .dig]

/-- Two states that a host can not tell apart: the same interfaces and phase, and the same instance unless no CREATE has
bound one yet, when A, BUF, CNT, DSZ and DIG may hold anything (R37, R160). Once one has, DIG is compared in Absorbing too,
where the spec leaves it unspecified: that it agrees after CREATE is the model's free value (log 2). -/
structure Indistinguishable (s t : State) : Prop where
  interfaces : SameInterfaces s t
  phase : s.phase = t.phase
  ir : s.ir = t.ir
  created : s.phase ≠ .uncreated → SameInstance s t

/-- The instance is idle and its stream holds exactly these commands, each as its encoding (R70). -/
def Presents (s : State) (commands : List Instr) : Prop :=
  s.select = none ∧ s.stream = (commands.map fun i => (encode i).hostBytes).flatten

/-- The machine's next step neither faults nor refuses. -/
def StepsOn (s : State) : Prop :=
  ∃ t, step s = .next t

end Sys2Proof.Machine
end

