-- ==== Sys2Proof/Certificates/Slice0/Obligations.lean ====
section
/-! DEFINITION. The statements for the provers. Each docstring names the rule of spec/ it formalises; where a clause rests
on a choice of the model or on an inference the spec marks as its own, the docstring says so. -/

open Sys2Proof Sys2Proof.Machine

/-! ## Reset and parameters -/

/-- After power-on PHASE is Uncreated and nothing is presented or answered (R37, R160); that the idle engine's step
leaves it as it is, is the model's choice (log 9). -/
def Obligations.PowerOnStateIsIdle : Prop :=
  State.reset.phase = .uncreated ∧ State.reset.ir = none ∧ State.reset.stream = [] ∧ State.reset.responses = [] ∧
    State.reset.select = none ∧ State.reset.blocks = [] ∧ step State.reset = .next State.reset

/-- The four parameter sets with every column of R6's table, the rate invariant (R7) and CREATE's exact match on the integer
(R76). The spec marks rate = 1600 − 2·d as general knowledge (R6), and R a multiple of 8 and DB ≤ R as derived (R7). -/
def Obligations.ParameterSetsAreTheTable : Prop :=
  (∀ p : DigestSize,
      (p.bits, p.rate, p.capacity, p.rateBytes, p.digestBytes, p.rateBytes / 8) ∈
        [(224, 1152, 448, 144, 28, 18), (256, 1088, 512, 136, 32, 17), (384, 832, 768, 104, 48, 13),
          (512, 576, 1024, 72, 64, 9)]) ∧
    (∀ p : DigestSize, p.rate % 8 = 0 ∧ p.rate < 1600 ∧ p.rate = 1600 - 2 * p.bits ∧ p.rateBytes % 8 = 0 ∧
      p.digestBytes ≤ p.rateBytes) ∧
    (∀ (d : Int) (p : DigestSize), parameterSet d = some p ↔ d = (p.bits : Int)) ∧
    (∀ d : Int, d ∉ ([224, 256, 384, 512] : List Int) →
      parameterSet d = none ∧
        ∀ s, exec (.create d) s = .next { s with responses := s.responses ++ [.error .invalidParameter] })

/-- The two ROMs against the generating procedures of R30 and R31 (general knowledge, as the spec marks it). -/
def Obligations.RomsFollowTheirProcedures : Prop :=
  (∀ (ir : Fin 24) (b : Fin 64), RC[ir].getLsbD b.val = rcProcedureBit ir.val b.val) ∧
    RHO[laneNumber 0 0] = 0 ∧
    (∀ t : Fin 24, RHO[laneNumber (rhoWalk t.val).1 (rhoWalk t.val).2] = ((t.val + 1) * (t.val + 2) / 2) % 64)

/-! ## Views and operators -/

/-- The lane operators (R10). -/
def Obligations.LaneOperatorsByBit : Prop :=
  (∀ (a b : Lane) (j : Nat), j < 64 →
      (a ^^^ b).getLsbD j = (a.getLsbD j ^^ b.getLsbD j) ∧ (a &&& b).getLsbD j = (a.getLsbD j && b.getLsbD j)) ∧
    (∀ a : Lane, (~~~ a).toNat = 2 ^ 64 - 1 - a.toNat) ∧
    (∀ (u v : Byte) (j : Nat), j < 8 →
      (u ^^^ v).getLsbD j = (u.getLsbD j ^^ v.getLsbD j) ∧ (u &&& v).getLsbD j = (u.getLsbD j && v.getLsbD j) ∧
        (u ||| v).getLsbD j = (u.getLsbD j || v.getLsbD j)) ∧
    (∀ (a : Lane) (n : Nat), n < 64 → ∀ j, j < 64 → (rol a n).getLsbD ((j + n) % 64) = a.getLsbD j) ∧
    (∀ a : Lane, rol a 0 = a) ∧
    (∀ (a : Lane) (n : Nat), 1 ≤ n → n < 64 →
      (rol a n).toNat = a.toNat * 2 ^ n % 2 ^ 64 + a.toNat / 2 ^ (64 - n))

/-- The byte view of the lanes (R22): S[i] is byte i mod 8 of lane i div 8, a lane is the little-endian sum of its eight
bytes, the flattened state lists the 200 bytes, a lane write changes the eight bytes of that lane and nothing else, and
XorStateByte changes one byte. -/
def Obligations.ByteViewOfLanes : Prop :=
  (∀ (A : Lanes) (x y : Fin 5) (i : Fin 200), i.val / 8 = x.val + 5 * y.val →
      (stateByte A i).toNat = (lane A x y).toNat / 2 ^ (8 * (i.val % 8)) % 256) ∧
    (∀ (A : Lanes) (x y : Fin 5),
      (lane A x y).toNat =
        ∑ k : Fin 8, 2 ^ (8 * k.val) * (stateByte A ⟨8 * (x.val + 5 * y.val) + k.val, by omega⟩).toNat) ∧
    (∀ A : Lanes, (stateBytes A).length = 200 ∧ ∀ i : Fin 200, (stateBytes A)[i.val]? = some (stateByte A i)) ∧
    (∀ (A : Lanes) (L : Fin 25) (a : Lane) (i : Fin 200),
      stateByte (A.set L a) i = if i.val / 8 = L.val then laneByte a (i.val % 8) else stateByte A i) ∧
    (∀ (A : Lanes) (i j : Fin 200) (v : Byte),
      stateByte (Machine.xorStateByte A i.val v) j = if j = i then stateByte A j ^^^ v else stateByte A j)

/-! ## The permutation family -/

/-- THETA (R92): result, frame, no error, code. -/
def Obligations.ThetaResult : Prop :=
  ∀ s : State, ∃ t, exec .theta s = .next t ∧ t = { s with lanes := t.lanes } ∧
    (∃ C D : Fin 5 → Lane,
      (∀ x, C x = lane s.lanes x 0 ^^^ lane s.lanes x 1 ^^^ lane s.lanes x 2 ^^^ lane s.lanes x 3 ^^^ lane s.lanes x 4) ∧
      (∀ x, D x = C (x + 4) ^^^ rol (C (x + 1)) 1) ∧
      (∀ x y, lane t.lanes x y = lane s.lanes x y ^^^ D x)) ∧
    encode .theta = .micro ⟨0x10#8, []⟩

/-- RHO (R93): result, frame, no error, code. The offsets are R31's table in the order of the lane number. -/
def Obligations.RhoResult : Prop :=
  ∀ s : State, ∃ t, exec .rho s = .next t ∧ t = { s with lanes := t.lanes } ∧
    (∀ x y : Fin 5, lane t.lanes x y = rol (lane s.lanes x y)
      ([0, 1, 62, 28, 27, 36, 44, 6, 55, 20, 3, 10, 43, 25, 39, 41, 45, 15, 21, 8, 18, 2, 61, 56, 14].getD
        (x.val + 5 * y.val) 0)) ∧
    encode .rho = .micro ⟨0x11#8, []⟩

/-- PI (R94): result, frame, no error, code; also in the form "the lane at input position (x,y) goes to output position
(y, (2x + 3y) mod 5)". -/
def Obligations.PiResult : Prop :=
  ∀ s : State, ∃ t, exec .pi s = .next t ∧ t = { s with lanes := t.lanes } ∧
    (∀ x y : Fin 5, lane t.lanes x y = lane s.lanes (x + 3 * y) x) ∧
    (∀ x y : Fin 5, lane t.lanes y (2 * x + 3 * y) = lane s.lanes x y) ∧
    encode .pi = .micro ⟨0x12#8, []⟩

/-- CHI (R95): result, frame, no error, code. -/
def Obligations.ChiResult : Prop :=
  ∀ s : State, ∃ t, exec .chi s = .next t ∧ t = { s with lanes := t.lanes } ∧
    (∀ x y : Fin 5, lane t.lanes x y =
      lane s.lanes x y ^^^ ((~~~ lane s.lanes (x + 1) y) &&& lane s.lanes (x + 2) y)) ∧
    encode .chi = .micro ⟨0x13#8, []⟩

/-- IOTA (R96): result, frame, no error, code. That the operand ir is one byte after the code is the model's layout
(log 6). -/
def Obligations.IotaResult : Prop :=
  ∀ (s : State) (ir : Fin 24), ∃ t, exec (.iota ir) s = .next t ∧ t = { s with lanes := t.lanes } ∧
    lane t.lanes 0 0 = lane s.lanes 0 0 ^^^ RC[ir] ∧
    (∀ x y : Fin 5, ¬(x = 0 ∧ y = 0) → lane t.lanes x y = lane s.lanes x y) ∧
    encode (.iota ir) = .micro ⟨0x14#8, [BitVec.ofNat 8 ir.val]⟩

/-- ROUND (R97): the five steps as the machine runs them, one after another, in this order; code. That the operand ir is
one byte after the code is the model's layout (log 6). -/
def Obligations.RoundIsTheFiveSteps : Prop :=
  ∀ (s : State) (ir : Fin 24), ∃ t, exec (.round ir) s = .next t ∧ t = { s with lanes := t.lanes } ∧
    execAll [.theta, .rho, .pi, .chi, .iota ir] s = .next t ∧
    encode (.round ir) = .micro ⟨0x15#8, [BitVec.ofNat 8 ir.val]⟩

/-- KECCAK_F (R98): exactly the 24 rounds, ir = 0, 1, ..., 23 in this order, and nothing else; the round index is not
preserved (R32). -/
def Obligations.KeccakFIsTwentyFourRounds : Prop :=
  ∀ s : State, ∃ t, exec .keccakF s = .next t ∧ t = { s with lanes := t.lanes, ir := none } ∧
    (∃ u, execAll ((List.finRange 24).map Instr.round) s = .next u ∧ t.lanes = u.lanes) ∧
    (∃ chain : Nat → Lanes, chain 0 = s.lanes ∧ chain 24 = t.lanes ∧
      ∀ ir : Fin 24, chain (ir.val + 1) = Machine.round (chain ir.val) ir) ∧
    encode .keccakF = .micro ⟨0x16#8, []⟩

/-- The fused form of RHO followed by PI (R100, marked derived there). -/
def Obligations.FusedRhoPi : Prop :=
  ∀ (A : Lanes) (x y : Fin 5),
    lane (Machine.pi (Machine.rho A)) y (2 * x + 3 * y) = rol (lane A x y) RHO[laneNumber x y]

/-- Each step mapping is a bijection on the 1600-bit state (R97, R99 (b), general knowledge as the spec marks it). -/
def Obligations.StepMappingsBijective : Prop :=
  Function.Bijective Machine.theta ∧ Function.Bijective Machine.rho ∧ Function.Bijective Machine.pi ∧
    Function.Bijective Machine.chi ∧ ∀ ir, Function.Bijective fun A => Machine.iota A ir

/-- KECCAK_F is a permutation of the state space, and no two instances that differ in their lanes alone meet by it
(R99 (b)). -/
def Obligations.KeccakFIsAPermutation : Prop :=
  Function.Bijective Machine.keccakF ∧
    ∀ s t u : State, exec .keccakF s = .next u → exec .keccakF t = .next u → s.lanes = t.lanes

/-! ## The sponge family -/

/-- XOR_STATE_BYTE (R110): with i < R, byte i of S is XORed and no other byte changes; the lane as the rule's arithmetic
gives it; frame, no error, code. That the operands are the bytes i and v after the code is the model's layout (log 6). -/
def Obligations.XorStateByteResult : Prop :=
  ∀ (s : State) (i : Fin 200) (v : Byte), i.val < s.rateBytes →
    ∃ t, exec (.xorStateByte i v) s = .next t ∧ t = { s with lanes := t.lanes } ∧
      (∀ j : Fin 200, stateByte t.lanes j = if j = i then stateByte s.lanes j ^^^ v else stateByte s.lanes j) ∧
      (∀ x y : Fin 5, lane t.lanes x y =
        if x.val = i.val / 8 % 5 ∧ y.val = i.val / 8 / 5
        then lane s.lanes x y ^^^ BitVec.ofNat 64 (v.toNat * 2 ^ (8 * (i.val % 8))) else lane s.lanes x y) ∧
      encode (.xorStateByte i v) = .micro ⟨0x17#8, [BitVec.ofNat 8 i.val, v]⟩

/-- XorStateByte twice with the same operands restores the state (R58, R110), HEXENC and an empty UPDATE leave the instance
as it is, and CREATE with the same d and RESET leave it, the second time, as the first time (R58, marked derived there). The
last two clauses compare DIG too, whose contents the spec leaves unspecified: that they are equal is the model's choice, a
free value that depends on the digest size alone (log 2). -/
def Obligations.RepeatingRestoresOrKeeps : Prop :=
  (∀ (s t u : State) (i : Fin 200) (v : Byte),
      exec (.xorStateByte i v) s = .next t → exec (.xorStateByte i v) t = .next u → u = s) ∧
    (∀ s : State, ∃ t u r, exec .hexenc s = .next t ∧ exec .hexenc t = .next u ∧ SameInstance s t ∧ SameInstance s u ∧
      u.responses = s.responses ++ [r, r]) ∧
    (∀ s : State, ∃ t, exec (.update []) s = .next t ∧ SameInstance s t) ∧
    (∀ (s : State) (d : Int), ∃ t u, exec (.create d) s = .next t ∧ exec (.create d) t = .next u ∧ SameInstance t u) ∧
    (∀ s : State, ∃ t u, exec .reset s = .next t ∧ exec .reset t = .next u ∧ SameInstance t u)

/-- ABSORB_BLOCK (R111): the block is XORed onto the first R bytes, the capacity bytes receive no XOR, then KECCAK_F;
BUF and CNT are not changed; no error, code. That the operand bytes are the block alone is the model's layout (log 6). -/
def Obligations.AbsorbBlockResult : Prop :=
  ∀ (s : State) (p : List Byte), p.length = s.rateBytes →
    ∃ t B, exec (.absorbBlock p) s = .next t ∧ t = { s with lanes := Machine.keccakF B, ir := none } ∧
      (∀ (i : Fin 200) (b : Byte), p[i.val]? = some b → stateByte B i = stateByte s.lanes i ^^^ b) ∧
      (∀ i : Fin 200, s.rateBytes ≤ i.val → stateByte B i = stateByte s.lanes i) ∧
      encode (.absorbBlock p) = .micro ⟨0x18#8, p⟩

/-- The lane-wise form of ABSORB_BLOCK's XOR loop (R116, marked derived there). -/
def Obligations.AbsorbLaneWise : Prop :=
  (∀ (A : Lanes) (p : List Byte) (d : DigestSize), p.length = d.rateBytes → xorBlock A p = xorBlockLanes A p) ∧
    (∀ (A : Lanes) (d : DigestSize) (p : List Byte) (x y : Fin 5), p.length = d.rateBytes →
      (d.rateBytes / 8 ≤ x.val + 5 * y.val → lane (xorBlock A p) x y = lane A x y) ∧
      (x.val + 5 * y.val < d.rateBytes / 8 → ∃ w : Lane, lane (xorBlock A p) x y = lane A x y ^^^ w ∧
        w.toNat = ∑ k : Fin 8, 2 ^ (8 * k.val) * (p.getD (8 * (x.val + 5 * y.val) + k.val) 0#8).toNat))

/-- BUF_APPEND (R112): with CNT ≤ R−1, the byte is stored at BUF[CNT]; a buffer that becomes full is absorbed at once, as
ABSORB_BLOCK does it, and cleared; no error, code. That the operand is one byte after the code is the model's layout
(log 6). -/
def Obligations.BufAppendResult : Prop :=
  ∀ (s : State) (v : Byte), s.cnt < s.rateBytes →
    (∃ t, exec (.bufAppend v) s = .next t ∧
      (s.cnt + 1 < s.rateBytes → t = { s with buf := s.buf ++ [v] }) ∧
      (s.cnt + 1 = s.rateBytes →
        ∃ u, exec (.absorbBlock (s.buf ++ [v])) s = .next u ∧ t = { u with buf := [] })) ∧
    encode (.bufAppend v) = .micro ⟨0x19#8, [v]⟩

/-- PAD (R113): the block in the two cases the rule spells out, its length R, and its bit string; nothing of the instance
changes. That the block is returned at the sequencer's interface (`blocks`) is the model's form (log 8). -/
def Obligations.PadResult : Prop :=
  ∀ s : State, s.cnt < s.rateBytes →
    ∃ p, exec .pad s = .next { s with blocks := s.blocks ++ [p] } ∧ p.length = s.rateBytes ∧
      (s.cnt + 2 ≤ s.rateBytes →
        p = s.buf ++ [0x06#8] ++ List.replicate (s.rateBytes - s.cnt - 2) 0x00#8 ++ [0x80#8]) ∧
      (s.cnt + 1 = s.rateBytes → p = s.buf ++ [0x86#8]) ∧
      bitString p = bitString s.buf ++ [false, true] ++ [true] ++
        List.replicate (8 * (s.rateBytes - s.cnt) - 4) false ++ [true] ∧
      encode .pad = .micro ⟨0x1A#8, []⟩

/-- SQUEEZE (R114): DIG[i] = S[i] for 0 ≤ i < DB, and nothing else changes; no error, code. -/
def Obligations.SqueezeResult : Prop :=
  ∀ s : State, ∃ t, exec .squeeze s = .next t ∧ t = { s with dig := t.dig } ∧ t.dig.length = s.dsz.bits / 8 ∧
    (∀ i : Fin 200, i.val < s.dsz.bits / 8 → t.dig[i.val]? = some (stateByte s.lanes i)) ∧
    encode .squeeze = .micro ⟨0x1B#8, []⟩

/-- Where a micro-operation stops: operands or CNT outside what R110 to R113 ask for. The stop is the model's (log 7). -/
def Obligations.MicroOperationsStopOutsideTheirRules : Prop :=
  (∀ (s : State) (i : Fin 200) (v : Byte), s.rateBytes ≤ i.val →
      exec (.xorStateByte i v) s = .fault (.indexOutsideRate i)) ∧
    (∀ (s : State) (p : List Byte), p.length ≠ s.rateBytes → exec (.absorbBlock p) s = .fault (.notOneBlock p.length)) ∧
    (∀ (s : State) (v : Byte), s.rateBytes ≤ s.cnt → exec (.bufAppend v) s = .fault .bufferFull) ∧
    (∀ s : State, s.rateBytes ≤ s.cnt → exec .pad s = .fault .bufferFull)

/-! ## The engine family -/

/-- CREATE (R121): what a legal d establishes, what an illegal one answers, frame and code. DIG after it is unspecified, so
nothing is said of its bytes. -/
def Obligations.CreateResult : Prop :=
  (∀ (s : State) (d : Int) (p : DigestSize), d = (p.bits : Int) →
      ∃ t, exec (.create d) s = .next t ∧
        t = { s with lanes := t.lanes, buf := [], dsz := p, phase := .absorbing, dig := t.dig,
                     responses := s.responses ++ [.ok] } ∧
        ∀ x y : Fin 5, lane t.lanes x y = 0x0000000000000000#64) ∧
    (∀ (s : State) (d : Int), (∀ p : DigestSize, d ≠ (p.bits : Int)) →
      exec (.create d) s = .next { s with responses := s.responses ++ [.error .invalidParameter] }) ∧
    (∀ d : Int, ∃ tail, encode (.create d) = .host (0x01#8 :: tail) ∧ tail.length = 4)

/-- UPDATE (R122): in Absorbing, BUF_APPEND of each byte in order, then OK; otherwise InvalidState and no change, also for
an empty operand; frame and code. The premise CNT ≤ R−1 holds between commands (R26), as the absence of a round index does
(R32). -/
def Obligations.UpdateResult : Prop :=
  (∀ (s : State) (data : List Byte), s.phase = .absorbing → s.cnt < s.rateBytes →
      ∃ t u, exec (.update data) s = .next t ∧ execAll (data.map Instr.bufAppend) s = .next u ∧
        t = { s with lanes := u.lanes, buf := u.buf, ir := t.ir, responses := s.responses ++ [.ok] } ∧
        (s.ir = none → t.ir = none)) ∧
    (∀ (s : State) (data : List Byte), s.phase ≠ .absorbing →
      exec (.update data) s = .next { s with responses := s.responses ++ [.error .invalidState] }) ∧
    (∀ data : List Byte, ∃ len4, encode (.update data) = .host (0x02#8 :: (len4 ++ data)) ∧ len4.length = 4)

/-- UPDATE's effect in closed form (R122, the paragraph marked derived there): the blocks absorbed are the successive R-byte
pieces of BUF ++ data, their number is (c + len) div R, and the last (c + len) mod R bytes stay in the buffer. -/
def Obligations.UpdateClosedForm : Prop :=
  ∀ (s : State) (data : List Byte), s.phase = .absorbing → s.cnt < s.rateBytes →
    ∃ t, exec (.update data) s = .next t ∧
      t.lanes = (wholeBlocks s.rateBytes (s.buf ++ data)).foldl (fun A p => Machine.keccakF (xorBlock A p)) s.lanes ∧
      (wholeBlocks s.rateBytes (s.buf ++ data)).length = (s.cnt + data.length) / s.rateBytes ∧
      t.buf = lastBytes s.rateBytes (s.buf ++ data) ∧
      t.cnt = (s.cnt + data.length) % s.rateBytes

/-- FINALIZE (R123): in Absorbing, PAD's block is absorbed, CNT is 0, the digest is the first DB bytes of the lanes left
behind and the response carries it; otherwise InvalidState and no change; code. The block is named through what PAD returns
on its own, in the field that is the model's form (log 8). -/
def Obligations.FinalizeResult : Prop :=
  (∀ s : State, s.phase = .absorbing → s.cnt < s.rateBytes →
      ∃ t p u, exec .finalize s = .next t ∧
        exec .pad s = .next { s with blocks := s.blocks ++ [p] } ∧ exec (.absorbBlock p) s = .next u ∧
        t = { u with buf := [], phase := .finalized, dig := t.dig, responses := s.responses ++ [.digest t.dig] } ∧
        t.dig.length = s.dsz.bits / 8 ∧
        ∀ i : Fin 200, i.val < s.dsz.bits / 8 → t.dig[i.val]? = some (stateByte t.lanes i)) ∧
    (∀ s : State, s.phase ≠ .absorbing →
      exec .finalize s = .next { s with responses := s.responses ++ [.error .invalidState] }) ∧
    encode .finalize = .host [0x03#8]

/-- RESET (R124): afterwards the instance is as CREATE DSZ leaves it (R161), the size kept; in Uncreated InvalidState; code.
That the unspecified contents of DIG are the same after both is the model's free value (log 2). -/
def Obligations.ResetResult : Prop :=
  (∀ s : State, s.phase ≠ .uncreated →
      ∃ t, exec .reset s = .next t ∧
        t = { s with lanes := t.lanes, buf := [], phase := .absorbing, dig := t.dig,
                     responses := s.responses ++ [.ok] } ∧
        (∀ x y : Fin 5, lane t.lanes x y = 0x0000000000000000#64) ∧
        exec (.create (s.dsz.bits : Int)) s = .next t) ∧
    (∀ s : State, s.phase = .uncreated →
      exec .reset s = .next { s with responses := s.responses ++ [.error .invalidState] }) ∧
    encode .reset = .host [0x04#8]

/-- HEXENC (R125): two upper-case characters a byte, high nibble first, from DIG; nothing but the response is new;
InvalidState unless Finalized; code. -/
def Obligations.HexencResult : Prop :=
  (∀ s : State, s.phase = .finalized →
      ∃ text, exec .hexenc s = .next { s with responses := s.responses ++ [.text text] } ∧
        text.length = 2 * s.dig.length ∧ (s.dig.length = s.digestBytes → text.length = 2 * (s.dsz.bits / 8)) ∧
        ∀ (i : Nat) (b : Byte), s.dig[i]? = some b →
          ∃ hi lo : Byte, text[2 * i]? = some hi ∧ text[2 * i + 1]? = some lo ∧
            ([0x30#8, 0x31#8, 0x32#8, 0x33#8, 0x34#8, 0x35#8, 0x36#8, 0x37#8, 0x38#8, 0x39#8, 0x41#8, 0x42#8, 0x43#8,
              0x44#8, 0x45#8, 0x46#8] : List Byte)[b.toNat / 16]? = some hi ∧
            ([0x30#8, 0x31#8, 0x32#8, 0x33#8, 0x34#8, 0x35#8, 0x36#8, 0x37#8, 0x38#8, 0x39#8, 0x41#8, 0x42#8, 0x43#8,
              0x44#8, 0x45#8, 0x46#8] : List Byte)[b.toNat % 16]? = some lo) ∧
    (∀ s : State, s.phase ≠ .finalized →
      exec .hexenc s = .next { s with responses := s.responses ++ [.error .invalidState] }) ∧
    encode .hexenc = .host [0x05#8]

/-- HASH (R126): from any phase, a legal d gives SHA3-d of the bytes and leaves the instance Finalized, just as CREATE,
UPDATE and FINALIZE one after another leave it; an illegal d gives InvalidParameter and no change. The one response is
the model's form (log 10). -/
def Obligations.HashComputesSha3 : Prop :=
  (∀ (s : State) (d : Int) (p : DigestSize) (bytes : List Byte), d = (p.bits : Int) →
      ∃ t u r1 r2 r3, exec (.hash d bytes) s = .next t ∧
        t.responses = s.responses ++ [.digest (sha3 p bytes)] ∧ t.dig = sha3 p bytes ∧ t.phase = .finalized ∧
        t.dsz = p ∧ t.buf = [] ∧
        execAll [.create d, .update bytes, .finalize] s = .next u ∧ SameInstance t u ∧
        u.responses = s.responses ++ [r1, r2, r3] ∧ r3 = .digest (sha3 p bytes)) ∧
    (∀ (s : State) (d : Int) (bytes : List Byte), (∀ p : DigestSize, d ≠ (p.bits : Int)) →
      exec (.hash d bytes) s = .next { s with responses := s.responses ++ [.error .invalidParameter] })

/-! ## Rules over the whole machine -/

/-- The lifecycle table (R120), cell by cell: the response and the next phase; an error leaves everything but the response
as it was. -/
def Obligations.LifecycleTable : Prop :=
  (∀ (s : State) (d : Int) (p : DigestSize), parameterSet d = some p →
      ∃ t, exec (.create d) s = .next t ∧ t.phase = .absorbing ∧ t.dsz = p ∧ t.lanes = zeroLanes ∧ t.buf = [] ∧
        t.responses = s.responses ++ [.ok]) ∧
    (∀ (s : State) (d : Int), parameterSet d = none →
      exec (.create d) s = .next { s with responses := s.responses ++ [.error .invalidParameter] }) ∧
    (∀ s : State, s.phase = .uncreated → ∀ c : Instr, c ∈ [Instr.finalize, .reset, .hexenc] ∨ (∃ data, c = .update data) →
      exec c s = .next { s with responses := s.responses ++ [.error .invalidState] }) ∧
    (∀ s : State, s.phase = .absorbing →
      (∀ data, ∃ t, exec (.update data) s = .next t ∧ t.phase = .absorbing ∧ t.responses = s.responses ++ [.ok]) ∧
      (∃ t digest, exec .finalize s = .next t ∧ t.phase = .finalized ∧ t.responses = s.responses ++ [.digest digest]) ∧
      (∃ t, exec .reset s = .next t ∧ t.phase = .absorbing ∧ t.dsz = s.dsz ∧ t.lanes = zeroLanes ∧ t.buf = [] ∧
        t.responses = s.responses ++ [.ok]) ∧
      exec .hexenc s = .next { s with responses := s.responses ++ [.error .invalidState] }) ∧
    (∀ s : State, s.phase = .finalized →
      (∀ data, exec (.update data) s = .next { s with responses := s.responses ++ [.error .invalidState] }) ∧
      exec .finalize s = .next { s with responses := s.responses ++ [.error .invalidState] } ∧
      (∃ t, exec .reset s = .next t ∧ t.phase = .absorbing ∧ t.dsz = s.dsz ∧ t.lanes = zeroLanes ∧ t.buf = [] ∧
        t.responses = s.responses ++ [.ok]) ∧
      ∃ text, exec .hexenc s = .next { s with responses := s.responses ++ [.text text] })

/-- Every host command ends in exactly one response, in every state (R13); a micro-operation gives none. -/
def Obligations.OneResponsePerCommand : Prop :=
  (∀ (i : Instr) (s : State), isHostCommand i = true →
      ∃ t r, exec i s = .next t ∧ t.responses = s.responses ++ [r] ∧
        ((∃ b, r = .digest b) → i = .finalize ∨ ∃ d m, i = .hash d m) ∧ ((∃ b, r = .text b) → i = .hexenc)) ∧
    (∀ (i : Instr) (s t : State), isHostCommand i = false → exec i s = .next t → t.responses = s.responses)

/-- Errors are precise and leave no trace (R147): a command that answers an error changes nothing but the response, and
repeating it gives the same error (R148). -/
def Obligations.ErrorsArePrecise : Prop :=
  ∀ (i : Instr) (s t : State) (e : Error), exec i s = .next t → t.responses = s.responses ++ [.error e] →
    t = { s with responses := s.responses ++ [.error e] } ∧
      exec i t = .next { t with responses := t.responses ++ [.error e] }

/-- Which operation can raise what (R144, marked derived there). -/
def Obligations.ErrorsOnlyWhereListed : Prop :=
  ∀ (i : Instr) (s t : State), exec i s = .next t →
    (t.responses = s.responses ++ [.error .invalidParameter] →
      ∃ d, (∀ p : DigestSize, d ≠ (p.bits : Int)) ∧ (i = .create d ∨ ∃ m, i = .hash d m)) ∧
    (t.responses = s.responses ++ [.error .invalidState] →
      ((∃ data, i = .update data) ∧ s.phase ≠ .absorbing) ∨ (i = .finalize ∧ s.phase ≠ .absorbing) ∨
        (i = .reset ∧ s.phase = .uncreated) ∨ (i = .hexenc ∧ s.phase ≠ .finalized))

/-- Chunking invariance (R127): UPDATE a then UPDATE b leaves the same architectural state as UPDATE (a ++ b), an empty
UPDATE changes nothing, and any two chunkings of one message give the same digest. -/
def Obligations.ChunkingInvariance : Prop :=
  (∀ (s : State) (a b : List Byte), s.phase = .absorbing →
      ∃ t u v, exec (.update a) s = .next t ∧ exec (.update b) t = .next u ∧ exec (.update (a ++ b)) s = .next v ∧
        SameInstance u v) ∧
    (∀ s : State, s.phase = .absorbing → ∃ t, exec (.update []) s = .next t ∧ SameInstance s t) ∧
    (∀ (s : State) (cs ds : List (List Byte)), s.phase = .absorbing → cs.flatten = ds.flatten →
      ∃ t u, execAll (cs.map Instr.update ++ [.finalize]) s = .next t ∧
        execAll (ds.map Instr.update ++ [.finalize]) s = .next u ∧ t.dig = u.dig ∧ SameInstance t u)

/-- The digest length contract (R129), for every state FINALIZE is accepted in. -/
def Obligations.DigestLengthContract : Prop :=
  ∀ s : State, s.phase = .absorbing →
    ∃ t digest, exec .finalize s = .next t ∧ t.responses = s.responses ++ [.digest digest] ∧
      (s.dsz, digest.length) ∈ [(DigestSize.d224, 28), (.d256, 32), (.d384, 48), (.d512, 64)]

/-- The write matrix (R36, marked derived there) and the interfaces: no operation writes a column it has no mark in; the
stream and the sequencer's interface are written by none, and the returned blocks by PAD alone. -/
def Obligations.WriteMatrix : Prop :=
  ∀ (i : Instr) (s t : State), exec i s = .next t →
    (.lanes ∉ writeMatrix i → t.lanes = s.lanes) ∧ (.buf ∉ writeMatrix i → t.buf = s.buf) ∧
    (.dsz ∉ writeMatrix i → t.dsz = s.dsz) ∧ (.phase ∉ writeMatrix i → t.phase = s.phase) ∧
    (.dig ∉ writeMatrix i → t.dig = s.dig) ∧ t.stream = s.stream ∧ t.select = s.select ∧
    (i ≠ .pad → t.blocks = s.blocks)

/-- The digest register is immutable in Finalized (R28): of the host's requests only CREATE, RESET and HASH, which leave
that phase or start anew, change it. -/
def Obligations.DigestImmutableWhileFinalized : Prop :=
  ∀ (i : Instr) (s t : State), isHostCommand i = true → s.phase = .finalized → exec i s = .next t →
    (t.phase = .finalized ∧ t.dig = s.dig) ∨ (∃ d, i = .create d) ∨ i = .reset ∨ ∃ d m, i = .hash d m

/-- After RESET the instance is as right after CREATE(d), whatever instructions stood between that leave the size at d, a
failed CREATE and a CREATE of the same d among them (R161). The premise that no round index is live holds between commands
(R32). That the unspecified contents of DIG are the same after both is the model's free value (log 2). -/
def Obligations.ResetReturnsToCreated : Prop :=
  ∀ (s t u : State) (d : Int) (p : DigestSize) (between : List Instr), s.ir = none → d = (p.bits : Int) →
    exec (.create d) s = .next t → execAll between t = .next u → u.dsz = p →
    ∃ v, exec .reset u = .next v ∧ SameInstance v t

/-- What power-on left unspecified can not be observed (R37, R160): two states that differ only in it answer every step
of the command stream alike, and stay so; no such step faults. After CREATE they agree in DIG too, whose contents the spec
still leaves unspecified there: that is the model's free value (log 2). -/
def Obligations.PowerOnContentsUnobservable : Prop :=
  ∀ s t : State, Indistinguishable s t → s.select = none →
    (∀ s', step s = .next s' → ∃ t', step t = .next t' ∧ Indistinguishable s' t') ∧
    (∀ r, step s = .refused r → step t = .refused r) ∧ (∀ f, step s ≠ .fault f)

/-- No command outputs BUF, A or DSZ, the capacity region among them (R63): but for FINALIZE and HASH, the response
depends on PHASE and DIG alone, and FINALIZE outputs the first DB bytes of the lanes it leaves, which lie in the rate
region (R59). -/
def Obligations.OnlyTheDigestIsOutput : Prop :=
  (∀ (i : Instr) (s t : State), isHostCommand i = true → i ≠ .finalize → (∀ d m, i ≠ .hash d m) →
      s.phase = t.phase → s.dig = t.dig →
      ∃ s' t' r, exec i s = .next s' ∧ exec i t = .next t' ∧ s'.responses = s.responses ++ [r] ∧
        t'.responses = t.responses ++ [r]) ∧
    (∀ (s : State), s.phase = .absorbing →
      ∃ t, exec .finalize s = .next t ∧
        t.responses = s.responses ++ [.digest ((stateBytes t.lanes).take s.digestBytes)] ∧
        s.digestBytes ≤ s.rateBytes)

/-- Several instances (R152): a step of one leaves every other as it is, and steps of two different instances may be taken
in either order. -/
def Obligations.InstancesDoNotInterfere : Prop :=
  ∀ (n : Nat) (j k : Fin n) (m a b : Instances n), j ≠ k → stepInstance j m = .next a → stepInstance k m = .next b →
    step m.engines[j] = .next a.engines[j] ∧ a.engines[k] = m.engines[k] ∧
      ∃ c, stepInstance k a = .next c ∧ stepInstance j b = .next c

/-! ## Invariants -/

/-- The invariants between commands (R38) hold after power-on, whatever the registers hold that R37 and R160 leave
unspecified there. -/
def Obligations.IdleInvariantAtPowerOn : Prop :=
  IdleInv State.reset ∧
    ∀ (A : Lanes) (buf dig : List Byte) (d : DigestSize),
      IdleInv { State.reset with lanes := A, buf := buf, dsz := d, dig := dig }

/-- Every operation keeps the storage bounds, the micro-operations included: CNT ≤ R−1, DB bytes of digest, no round
index left (R26, R28, R32, R171). -/
def Obligations.StorageBoundsKept : Prop :=
  ∀ (i : Instr) (s t : State), StorageBounds s → exec i s = .next t → StorageBounds t

/-- The invariants between commands (R38 items 1 to 4, marked derived there), which in Uncreated ask nothing of A, BUF, CNT,
DSZ and DIG: every step from a state that meets them gives a state that meets them. -/
def Obligations.IdleInvariantKept : Prop :=
  ∀ s t : State, IdleInv s → step s = .next t → IdleInv t

/-- The sponge invariant (R38 item 5, marked derived there): CREATE and RESET start the empty message, UPDATE extends the
message absorbed so far, and FINALIZE answers its SHA-3 digest. -/
def Obligations.SpongeInvariant : Prop :=
  (∀ (s t : State) (d : Int) (p : DigestSize), d = (p.bits : Int) → exec (.create d) s = .next t → HasAbsorbed p [] t) ∧
    (∀ s t : State, s.phase ≠ .uncreated → exec .reset s = .next t → HasAbsorbed s.dsz [] t) ∧
    (∀ (s t : State) (p : DigestSize) (m data : List Byte), HasAbsorbed p m s →
      exec (.update data) s = .next t → HasAbsorbed p (m ++ data) t) ∧
    (∀ (s t : State) (p : DigestSize) (m : List Byte), HasAbsorbed p m s → exec .finalize s = .next t →
      t.responses = s.responses ++ [.digest (sha3 p m)])

/-- The engine computes SHA-3 (R126, R127): from an idle instance in any phase, the command stream CREATE d, the message in
any chunks, FINALIZE, run step by step, is consumed and answered with OK for each command and at last with the digest of
the whole message. -/
def Obligations.EngineComputesSha3 : Prop :=
  ∀ (s : State) (d : Int) (p : DigestSize) (chunks : List (List Byte)), d = (p.bits : Int) →
    (∀ c ∈ chunks, c.length ≤ Config.lenMax) →
    Presents s (.create d :: (chunks.map Instr.update ++ [.finalize])) →
    ∃ t : State, Host.Core.run Sys2Proof.core (chunks.length + 2) s = .next t ∧
      t.responses = s.responses ++ List.replicate (chunks.length + 1) .ok ++ [.digest (sha3 p chunks.flatten)] ∧
      t.phase = .finalized ∧ t.dig = sha3 p chunks.flatten ∧ t.stream = []

/-! ## Encoding and stepping -/

/-- Words written out from the encodings of R71 to R75 and the select codes of R78 decode to what they stand for. The
operand bytes of the IOTA and the XOR_STATE_BYTE word are the model's layout (log 6). -/
def Obligations.SampleWordsDecode : Prop :=
  decode (.host [0x01#8, 0xE0#8, 0x00#8, 0x00#8, 0x00#8]) = .ok (.create 224, []) ∧
    decode (.host [0x01#8, 0x00#8, 0x01#8, 0x00#8, 0x00#8, 0x03#8]) = .ok (.create 256, [0x03#8]) ∧
    decode (.host [0x01#8, 0xFF#8, 0xFF#8, 0xFF#8, 0xFF#8]) = .ok (.create (-1), []) ∧
    decode (.host [0x02#8, 0x03#8, 0x00#8, 0x00#8, 0x00#8, 0x61#8, 0x62#8, 0x63#8]) =
      .ok (.update [0x61#8, 0x62#8, 0x63#8], []) ∧
    decode (.host [0x03#8, 0x04#8]) = .ok (.finalize, [0x04#8]) ∧
    decode (.host [0x04#8]) = .ok (.reset, []) ∧
    decode (.host [0x05#8]) = .ok (.hexenc, []) ∧
    decode (.micro ⟨0x14#8, [0x17#8]⟩) = .ok (.iota 23, []) ∧
    decode (.micro ⟨0x17#8, [0x0A#8, 0xAB#8]⟩) = .ok (.xorStateByte 10 0xAB#8, [])

/-- Decoding an encoded well-formed instruction gives it back, with every operand, and leaves the bytes after it. HASH,
which has no encoding of its own, has the next statement. The operand bytes of the micro-operations are the model's layout
(log 6). -/
def Obligations.DecodeOfEncode : Prop :=
  ∀ (i : Instr) (rest : List Byte), i.wellFormed = true → (∀ d m, i ≠ .hash d m) →
    match encode i with
    | .host bytes => isHostCommand i = true ∧ decode (.host (bytes ++ rest)) = .ok (i, rest)
    | .micro w => isHostCommand i = false ∧ decode (.micro w) = .ok (i, [])

/-- HASH's encoding is that of its expansion (R85): CREATE d, then UPDATE commands that carry the bytes in order, one if
they fit one command, then FINALIZE. That it holds all of them for an illegal d too is the model's choice (log 19). -/
def Obligations.HashEncodingIsItsExpansion : Prop :=
  ∀ (d : Int) (bytes : List Byte), (Instr.hash d bytes).wellFormed = true →
    ∃ stream pieces, encode (.hash d bytes) = .host stream ∧
      decodeStream stream = .ok (.create d :: (pieces.map Instr.update ++ [.finalize])) ∧
      pieces.flatten = bytes ∧ (∀ p ∈ pieces, p.length ≤ 2 ^ 32 - 1) ∧ (bytes.length ≤ 2 ^ 32 - 1 → pieces = [bytes])

/-- What decodes is well-formed, and its encoding is the very bytes that were read (R82): no two encodings mean the same,
and no command of the host's stream is a micro-operation (R78). The operand bytes of the micro-operations are the model's
layout (log 6). -/
def Obligations.EncodeOfDecode : Prop :=
  (∀ (bytes rest : List Byte) (i : Instr), decode (.host bytes) = .ok (i, rest) →
      i.wellFormed = true ∧ isHostCommand i = true ∧ ∃ own, encode i = .host own ∧ bytes = own ++ rest) ∧
    (∀ (w : MicroWord) (rest : List Byte) (i : Instr), decode (.micro w) = .ok (i, rest) →
      i.wellFormed = true ∧ isHostCommand i = false ∧ encode i = .micro w ∧ rest = [])

/-- A reserved command code is refused: no response, no next state (R79); the select codes are among them. -/
def Obligations.ReservedCodesAreRefused : Prop :=
  ∀ (s : State) (code : Byte) (rest : List Byte), s.select = none → s.stream = code :: rest →
    code ∉ [0x01#8, 0x02#8, 0x03#8, 0x04#8, 0x05#8] → step s = .refused (.reservedCode code)

/-- A finite stream that ends inside a command is refused (R80): fewer than five bytes of a CREATE or UPDATE, or fewer
data bytes than len32 says. -/
def Obligations.TruncatedCommandsAreRefused : Prop :=
  (∀ (s : State) (code : Byte) (rest : List Byte), s.select = none → s.stream = code :: rest →
      code = 0x01#8 ∨ code = 0x02#8 → rest.length < 4 → step s = .refused .truncatedCommand) ∧
    (∀ (s : State) (b0 b1 b2 b3 : Byte) (data : List Byte), s.select = none →
      s.stream = 0x02#8 :: b0 :: b1 :: b2 :: b3 :: data →
      data.length < b0.toNat + 2 ^ 8 * b1.toNat + 2 ^ 16 * b2.toNat + 2 ^ 24 * b3.toNat →
      step s = .refused .truncatedCommand)

/-- A format M word that names no micro-operation, or carries other operands than its row lists, is refused at the
sequencer's interface: operand bytes for a row without operands, another number of bytes than the row's, a round index byte
of 24 or more, an XOR_STATE_BYTE index byte of 144 or more, a block of none of the four sizes. The operand bytes are the
model's form (log 6). -/
def Obligations.BadSelectWordsAreRefused : Prop :=
  (∀ (s : State) (w : MicroWord), s.select = some w → w.code.toNat < 0x10 ∨ 0x1B < w.code.toNat →
      step s = .refused (.unknownSelect w.code)) ∧
    (∀ (s : State) (code : Byte) (operands : List Byte), s.select = some ⟨code, operands⟩ →
      code ∈ [0x10#8, 0x11#8, 0x12#8, 0x13#8, 0x16#8, 0x1A#8, 0x1B#8] → operands ≠ [] →
      step s = .refused (.badSelectOperands code)) ∧
    (∀ (s : State) (code : Byte) (operands : List Byte), s.select = some ⟨code, operands⟩ →
      code ∈ [0x14#8, 0x15#8, 0x19#8] → operands.length ≠ 1 → step s = .refused (.badSelectOperands code)) ∧
    (∀ (s : State) (code b : Byte), s.select = some ⟨code, [b]⟩ → code ∈ [0x14#8, 0x15#8] → 24 ≤ b.toNat →
      step s = .refused (.badSelectOperands code)) ∧
    (∀ (s : State) (operands : List Byte), s.select = some ⟨0x17#8, operands⟩ → operands.length ≠ 2 →
      step s = .refused (.badSelectOperands 0x17#8)) ∧
    (∀ (s : State) (i v : Byte), s.select = some ⟨0x17#8, [i, v]⟩ → 144 ≤ i.toNat →
      step s = .refused (.badSelectOperands 0x17#8)) ∧
    (∀ (s : State) (operands : List Byte), s.select = some ⟨0x18#8, operands⟩ →
      operands.length ∉ [72, 104, 136, 144] → step s = .refused (.badSelectOperands 0x18#8))

/-- A step runs the decoded instruction: the command of the stream with its bytes consumed, or the micro-operation at the
sequencer's interface; with nothing presented the engine waits (log 9). -/
def Obligations.StepRunsTheDecodedInstruction : Prop :=
  (∀ (s : State) (i : Instr) (rest : List Byte), s.select = none → decode (.host s.stream) = .ok (i, rest) →
      step s = exec i { s with stream := rest }) ∧
    (∀ (s : State) (w : MicroWord) (i : Instr) (rest : List Byte), s.select = some w →
      decode (.micro w) = .ok (i, rest) → step s = exec i { s with select := none }) ∧
    (∀ s : State, s.select = none → s.stream = [] → step s = .next s)

/-- There is no state in which the engine stops accepting commands (R150, marked derived there): an idle instance whose
stream holds well-formed commands runs the first and presents the rest, in every phase. -/
def Obligations.WellFormedStreamsNeverStop : Prop :=
  ∀ (s : State) (c : Instr) (commands : List Instr), Presents s (c :: commands) →
    (∀ i ∈ c :: commands, i.wellFormed = true ∧ isHostCommand i = true ∧ ∀ d m, i ≠ .hash d m) →
    ∃ t r, step s = .next t ∧ Presents t commands ∧ t.responses = s.responses ++ [r]

/-- A response's bytes (R83): the status byte and the payload; the digest and text payloads have DB and 2·DB bytes for the
commands that deliver them. -/
def Obligations.ResponseBytes : Prop :=
  encodeResponse .ok = [0x00#8] ∧ (∀ b, encodeResponse (.digest b) = 0x00#8 :: b) ∧
    (∀ c, encodeResponse (.text c) = 0x00#8 :: c) ∧ encodeResponse (.error .invalidParameter) = [0x01#8] ∧
    encodeResponse (.error .invalidState) = [0x02#8] ∧
    (∀ s : State, s.phase = .absorbing → ∃ t r, exec .finalize s = .next t ∧ t.responses = s.responses ++ [r] ∧
      (encodeResponse r).length = 1 + s.dsz.bits / 8) ∧
    (∀ s : State, s.phase = .finalized → s.dig.length = s.digestBytes →
      ∃ t r, exec .hexenc s = .next t ∧ t.responses = s.responses ++ [r] ∧
        (encodeResponse r).length = 1 + 2 * (s.dsz.bits / 8))

/-- The listing form (R84 (b)): every host command and HASH has a line, which reads back as it, and no micro-operation has
one. What the rule leaves open of the form is the model's choice (log 16). -/
def Obligations.ListingReadsBack : Prop :=
  (∀ i : Instr, (writeLine i).isSome = isHostCommand i) ∧
    ∀ (i : Instr) (line : List Char), writeLine i = some line → readLine line = some i
end

