-- ==== Sys2Proof/Laws/State.lean ====
section
/-! SUPPORT. One lemma per field per update of State, and the shared operations as record updates, so that no later proof
unfolds an operation to read a field. -/

namespace Sys2Proof.Machine

/-! ### respond -/

@[simp] theorem respond_lanes (s : State) (r : Response) : (s.respond r).lanes = s.lanes := rfl
@[simp] theorem respond_buf (s : State) (r : Response) : (s.respond r).buf = s.buf := rfl
@[simp] theorem respond_dsz (s : State) (r : Response) : (s.respond r).dsz = s.dsz := rfl
@[simp] theorem respond_phase (s : State) (r : Response) : (s.respond r).phase = s.phase := rfl
@[simp] theorem respond_dig (s : State) (r : Response) : (s.respond r).dig = s.dig := rfl
@[simp] theorem respond_ir (s : State) (r : Response) : (s.respond r).ir = s.ir := rfl
@[simp] theorem respond_stream (s : State) (r : Response) : (s.respond r).stream = s.stream := rfl
@[simp] theorem respond_responses (s : State) (r : Response) : (s.respond r).responses = s.responses ++ [r] := rfl
@[simp] theorem respond_select (s : State) (r : Response) : (s.respond r).select = s.select := rfl
@[simp] theorem respond_blocks (s : State) (r : Response) : (s.respond r).blocks = s.blocks := rfl

/-! ### raise -/

@[simp] theorem raise_lanes (s : State) (e : Error) : (s.raise e).lanes = s.lanes := rfl
@[simp] theorem raise_buf (s : State) (e : Error) : (s.raise e).buf = s.buf := rfl
@[simp] theorem raise_dsz (s : State) (e : Error) : (s.raise e).dsz = s.dsz := rfl
@[simp] theorem raise_phase (s : State) (e : Error) : (s.raise e).phase = s.phase := rfl
@[simp] theorem raise_dig (s : State) (e : Error) : (s.raise e).dig = s.dig := rfl
@[simp] theorem raise_ir (s : State) (e : Error) : (s.raise e).ir = s.ir := rfl
@[simp] theorem raise_stream (s : State) (e : Error) : (s.raise e).stream = s.stream := rfl
@[simp] theorem raise_responses (s : State) (e : Error) : (s.raise e).responses = s.responses ++ [.error e] := rfl
@[simp] theorem raise_select (s : State) (e : Error) : (s.raise e).select = s.select := rfl
@[simp] theorem raise_blocks (s : State) (e : Error) : (s.raise e).blocks = s.blocks := rfl

/-! ### initialise -/

@[simp] theorem initialise_lanes (s : State) (d : DigestSize) : (s.initialise d).lanes = zeroLanes := rfl
@[simp] theorem initialise_buf (s : State) (d : DigestSize) : (s.initialise d).buf = [] := rfl
@[simp] theorem initialise_dsz (s : State) (d : DigestSize) : (s.initialise d).dsz = d := rfl
@[simp] theorem initialise_phase (s : State) (d : DigestSize) : (s.initialise d).phase = .absorbing := rfl
@[simp] theorem initialise_dig (s : State) (d : DigestSize) : (s.initialise d).dig = invalidDigest d := rfl
@[simp] theorem initialise_ir (s : State) (d : DigestSize) : (s.initialise d).ir = s.ir := rfl
@[simp] theorem initialise_stream (s : State) (d : DigestSize) : (s.initialise d).stream = s.stream := rfl
@[simp] theorem initialise_responses (s : State) (d : DigestSize) : (s.initialise d).responses = s.responses := rfl
@[simp] theorem initialise_select (s : State) (d : DigestSize) : (s.initialise d).select = s.select := rfl
@[simp] theorem initialise_blocks (s : State) (d : DigestSize) : (s.initialise d).blocks = s.blocks := rfl

/-! ### xorByte -/

@[simp] theorem xorByte_lanes (s : State) (i : Nat) (v : Byte) : (s.xorByte i v).lanes = xorStateByte s.lanes i v := rfl
@[simp] theorem xorByte_buf (s : State) (i : Nat) (v : Byte) : (s.xorByte i v).buf = s.buf := rfl
@[simp] theorem xorByte_dsz (s : State) (i : Nat) (v : Byte) : (s.xorByte i v).dsz = s.dsz := rfl
@[simp] theorem xorByte_phase (s : State) (i : Nat) (v : Byte) : (s.xorByte i v).phase = s.phase := rfl
@[simp] theorem xorByte_dig (s : State) (i : Nat) (v : Byte) : (s.xorByte i v).dig = s.dig := rfl
@[simp] theorem xorByte_ir (s : State) (i : Nat) (v : Byte) : (s.xorByte i v).ir = s.ir := rfl
@[simp] theorem xorByte_stream (s : State) (i : Nat) (v : Byte) : (s.xorByte i v).stream = s.stream := rfl
@[simp] theorem xorByte_responses (s : State) (i : Nat) (v : Byte) : (s.xorByte i v).responses = s.responses := rfl
@[simp] theorem xorByte_select (s : State) (i : Nat) (v : Byte) : (s.xorByte i v).select = s.select := rfl
@[simp] theorem xorByte_blocks (s : State) (i : Nat) (v : Byte) : (s.xorByte i v).blocks = s.blocks := rfl

/-! ### returnBlock -/

@[simp] theorem returnBlock_lanes (s : State) (p : List Byte) : (s.returnBlock p).lanes = s.lanes := rfl
@[simp] theorem returnBlock_buf (s : State) (p : List Byte) : (s.returnBlock p).buf = s.buf := rfl
@[simp] theorem returnBlock_dsz (s : State) (p : List Byte) : (s.returnBlock p).dsz = s.dsz := rfl
@[simp] theorem returnBlock_phase (s : State) (p : List Byte) : (s.returnBlock p).phase = s.phase := rfl
@[simp] theorem returnBlock_dig (s : State) (p : List Byte) : (s.returnBlock p).dig = s.dig := rfl
@[simp] theorem returnBlock_ir (s : State) (p : List Byte) : (s.returnBlock p).ir = s.ir := rfl
@[simp] theorem returnBlock_stream (s : State) (p : List Byte) : (s.returnBlock p).stream = s.stream := rfl
@[simp] theorem returnBlock_responses (s : State) (p : List Byte) : (s.returnBlock p).responses = s.responses := rfl
@[simp] theorem returnBlock_select (s : State) (p : List Byte) : (s.returnBlock p).select = s.select := rfl
@[simp] theorem returnBlock_blocks (s : State) (p : List Byte) : (s.returnBlock p).blocks = s.blocks ++ [p] := rfl

/-! ### squeeze -/

@[simp] theorem squeeze_lanes (s : State) : (s.squeeze).lanes = s.lanes := rfl
@[simp] theorem squeeze_buf (s : State) : (s.squeeze).buf = s.buf := rfl
@[simp] theorem squeeze_dsz (s : State) : (s.squeeze).dsz = s.dsz := rfl
@[simp] theorem squeeze_phase (s : State) : (s.squeeze).phase = s.phase := rfl
@[simp] theorem squeeze_dig (s : State) : (s.squeeze).dig = squeezeBytes s.dsz s.lanes := rfl
@[simp] theorem squeeze_ir (s : State) : (s.squeeze).ir = s.ir := rfl
@[simp] theorem squeeze_stream (s : State) : (s.squeeze).stream = s.stream := rfl
@[simp] theorem squeeze_responses (s : State) : (s.squeeze).responses = s.responses := rfl
@[simp] theorem squeeze_select (s : State) : (s.squeeze).select = s.select := rfl
@[simp] theorem squeeze_blocks (s : State) : (s.squeeze).blocks = s.blocks := rfl

/-! ### KECCAK_F, ABSORB_BLOCK and FINALIZE as one update each -/

theorem runRounds_eq (irs : List (Fin 24)) (s : State) :
    { irs.foldl (fun t ir => (t.startRound ir).runRound) s with ir := none } =
      { s with lanes := irs.foldl round s.lanes, ir := none } := by
  induction irs generalizing s with
  | nil => rfl
  | cons k ks ih => simpa [State.startRound, State.runRound] using ih { s with lanes := round s.lanes k, ir := some k }

theorem keccakF_eq (A : Lanes) : keccakF A = (List.finRange 24).foldl round A := by
  rw [keccakF]

/-- The round index leaves no trace: KECCAK_F is the function of the lanes. -/
@[simp] theorem permute_eq (s : State) : s.permute = { s with lanes := keccakF s.lanes, ir := none } := by
  rw [keccakF_eq]
  exact runRounds_eq (List.finRange 24) s

@[simp] theorem absorb_eq (s : State) (p : List Byte) :
    s.absorb p = { s with lanes := keccakF (xorBlock s.lanes p), ir := none } := by
  simp [State.absorb]

/-- The lanes FINALIZE leaves. -/
def finalLanes (s : State) : Lanes :=
  keccakF (xorBlock s.lanes (padBlock s.rateBytes s.buf))

theorem finish_eq (s : State) :
    s.finish = { s with lanes := finalLanes s, buf := [], phase := .finalized, dig := squeezeBytes s.dsz (finalLanes s), ir := none } := by
  simp [State.finish, State.squeeze, finalLanes]

/-! ### BUF_APPEND and UPDATE's loop: what they leave alone -/

@[simp] theorem append_dsz (s : State) (v : Byte) : (s.append v).dsz = s.dsz := by
  unfold State.append; split <;> simp

@[simp] theorem absorbBytes_dsz (s : State) (data : List Byte) : (s.absorbBytes data).dsz = s.dsz := by
  induction data generalizing s with
  | nil => rfl
  | cons v vs ih => exact (ih (s.append v)).trans (append_dsz s v)

@[simp] theorem append_phase (s : State) (v : Byte) : (s.append v).phase = s.phase := by
  unfold State.append; split <;> simp

@[simp] theorem absorbBytes_phase (s : State) (data : List Byte) : (s.absorbBytes data).phase = s.phase := by
  induction data generalizing s with
  | nil => rfl
  | cons v vs ih => exact (ih (s.append v)).trans (append_phase s v)

@[simp] theorem append_dig (s : State) (v : Byte) : (s.append v).dig = s.dig := by
  unfold State.append; split <;> simp

@[simp] theorem absorbBytes_dig (s : State) (data : List Byte) : (s.absorbBytes data).dig = s.dig := by
  induction data generalizing s with
  | nil => rfl
  | cons v vs ih => exact (ih (s.append v)).trans (append_dig s v)

@[simp] theorem append_stream (s : State) (v : Byte) : (s.append v).stream = s.stream := by
  unfold State.append; split <;> simp

@[simp] theorem absorbBytes_stream (s : State) (data : List Byte) : (s.absorbBytes data).stream = s.stream := by
  induction data generalizing s with
  | nil => rfl
  | cons v vs ih => exact (ih (s.append v)).trans (append_stream s v)

@[simp] theorem append_responses (s : State) (v : Byte) : (s.append v).responses = s.responses := by
  unfold State.append; split <;> simp

@[simp] theorem absorbBytes_responses (s : State) (data : List Byte) : (s.absorbBytes data).responses = s.responses := by
  induction data generalizing s with
  | nil => rfl
  | cons v vs ih => exact (ih (s.append v)).trans (append_responses s v)

@[simp] theorem append_select (s : State) (v : Byte) : (s.append v).select = s.select := by
  unfold State.append; split <;> simp

@[simp] theorem absorbBytes_select (s : State) (data : List Byte) : (s.absorbBytes data).select = s.select := by
  induction data generalizing s with
  | nil => rfl
  | cons v vs ih => exact (ih (s.append v)).trans (append_select s v)

@[simp] theorem append_blocks (s : State) (v : Byte) : (s.append v).blocks = s.blocks := by
  unfold State.append; split <;> simp

@[simp] theorem absorbBytes_blocks (s : State) (data : List Byte) : (s.absorbBytes data).blocks = s.blocks := by
  induction data generalizing s with
  | nil => rfl
  | cons v vs ih => exact (ih (s.append v)).trans (append_blocks s v)

@[simp] theorem absorbBytes_rateBytes (s : State) (data : List Byte) : (s.absorbBytes data).rateBytes = s.rateBytes := by
  simp [State.rateBytes]

theorem append_ir (s : State) (v : Byte) (h : s.ir = none) : (s.append v).ir = none := by
  unfold State.append; split <;> simp [h]

theorem absorbBytes_ir (s : State) (data : List Byte) (h : s.ir = none) : (s.absorbBytes data).ir = none := by
  induction data generalizing s with
  | nil => exact h
  | cons v vs ih => exact ih (s.append v) (append_ir s v h)

/-! ### Phases -/

@[simp] theorem isAbsorbing_iff (s : State) : s.isAbsorbing = true ↔ s.phase = .absorbing := by
  simp [State.isAbsorbing]

@[simp] theorem isFinalized_iff (s : State) : s.isFinalized = true ↔ s.phase = .finalized := by
  simp [State.isFinalized]

@[simp] theorem isCreated_iff (s : State) : s.isCreated = true ↔ s.phase ≠ .uncreated := by
  simp [State.isCreated]

theorem isAbsorbing_of_ne (s : State) (h : s.phase ≠ .absorbing) : s.isAbsorbing = false := by
  simp [State.isAbsorbing, h]

theorem isFinalized_of_ne (s : State) (h : s.phase ≠ .finalized) : s.isFinalized = false := by
  simp [State.isFinalized, h]

theorem isCreated_of_eq (s : State) (h : s.phase = .uncreated) : s.isCreated = false := by
  simp [State.isCreated, h]

end Sys2Proof.Machine
end

