-- ==== Sys2Proof/Laws/Engine.lean ====
section
/-! SUPPORT. What each host command answers, case by case, and what every instruction answers when it answers a next
state: the inversion lemma of exec. -/

namespace Sys2Proof.Machine

theorem parameterSet_eq_some (d : Int) (p : DigestSize) : parameterSet d = some p ↔ d = (p.bits : Int) := by
  unfold parameterSet
  split_ifs <;> cases p <;> simp_all [DigestSize.bits]

theorem parameterSet_eq_none (d : Int) : parameterSet d = none ↔ ∀ p : DigestSize, d ≠ (p.bits : Int) := by
  constructor
  · intro h p hp
    rw [(parameterSet_eq_some d p).mpr hp] at h
    cases h
  · intro h
    cases hp : parameterSet d with
    | none => rfl
    | some p => exact absurd ((parameterSet_eq_some d p).mp hp) (h p)

theorem execCreate_legal (d : Int) (p : DigestSize) (s : State) (h : parameterSet d = some p) :
    execCreate d s = .next ((s.initialise p).respond .ok) := by
  simp [execCreate, h]

theorem execCreate_illegal (d : Int) (s : State) (h : parameterSet d = none) :
    execCreate d s = .next (s.raise .invalidParameter) := by
  simp [execCreate, h]

theorem execUpdate_absorbing (data : List Byte) (s : State) (h : s.phase = .absorbing) :
    execUpdate data s = .next ((s.absorbBytes data).respond .ok) := by
  simp [execUpdate, State.inPhase, h]

theorem execUpdate_other (data : List Byte) (s : State) (h : s.phase ≠ .absorbing) :
    execUpdate data s = .next (s.raise .invalidState) := by
  simp [execUpdate, State.inPhase, isAbsorbing_of_ne s h]

theorem execFinalize_absorbing (s : State) (h : s.phase = .absorbing) :
    execFinalize s = .next (s.finish.respond (.digest s.finish.dig)) := by
  simp [execFinalize, State.inPhase, h]

theorem execFinalize_other (s : State) (h : s.phase ≠ .absorbing) :
    execFinalize s = .next (s.raise .invalidState) := by
  simp [execFinalize, State.inPhase, isAbsorbing_of_ne s h]

theorem execReset_created (s : State) (h : s.phase ≠ .uncreated) :
    execReset s = .next ((s.initialise s.dsz).respond .ok) := by
  simp [execReset, State.inPhase, h]

theorem execReset_uncreated (s : State) (h : s.phase = .uncreated) :
    execReset s = .next (s.raise .invalidState) := by
  simp [execReset, State.inPhase, isCreated_of_eq s h]

theorem execHexenc_finalized (s : State) (h : s.phase = .finalized) :
    execHexenc s = .next (s.respond (.text (hexText s.dig))) := by
  simp [execHexenc, State.inPhase, h]

theorem execHexenc_other (s : State) (h : s.phase ≠ .finalized) :
    execHexenc s = .next (s.raise .invalidState) := by
  simp [execHexenc, State.inPhase, isFinalized_of_ne s h]

/-- The state in which HASH leaves the instance, its response apart (R126). -/
def hashed (s : State) (p : DigestSize) (bytes : List Byte) : State :=
  ((s.initialise p).absorbBytes bytes).finish

theorem execHash_legal (d : Int) (p : DigestSize) (bytes : List Byte) (s : State) (h : parameterSet d = some p) :
    execHash d bytes s = .next ((hashed s p bytes).respond (.digest (hashed s p bytes).dig)) := by
  simp [execHash, h, hashed]

theorem execHash_illegal (d : Int) (bytes : List Byte) (s : State) (h : parameterSet d = none) :
    execHash d bytes s = .next (s.raise .invalidParameter) := by
  simp [execHash, h]

/-- The state an instruction answers, as a function: every case of `exec` that answers a next state. A case that stops
is given the state it stops in. -/
def effect (i : Instr) (s : State) : State :=
  match i with
  | .create d =>
    match parameterSet d with
    | some p => (s.initialise p).respond .ok
    | none => s.raise .invalidParameter
  | .update data => s.inPhase s.isAbsorbing ((s.absorbBytes data).respond .ok)
  | .finalize => s.inPhase s.isAbsorbing (s.finish.respond (.digest s.finish.dig))
  | .reset => s.inPhase s.isCreated ((s.initialise s.dsz).respond .ok)
  | .hexenc => s.inPhase s.isFinalized (s.respond (.text (hexText s.dig)))
  | .theta => { s with lanes := theta s.lanes }
  | .rho => { s with lanes := rho s.lanes }
  | .pi => { s with lanes := pi s.lanes }
  | .chi => { s with lanes := chi s.lanes }
  | .iota ir => { s with lanes := iota s.lanes ir }
  | .round ir => { s with lanes := round s.lanes ir }
  | .keccakF => s.permute
  | .xorStateByte i v => s.xorByte i.val v
  | .absorbBlock p => s.absorb p
  | .bufAppend v => s.append v
  | .pad => s.returnBlock (padBlock s.rateBytes s.buf)
  | .squeeze => s.squeeze
  | .hash d bytes =>
    match parameterSet d with
    | some p => (hashed s p bytes).respond (.digest (hashed s p bytes).dig)
    | none => s.raise .invalidParameter

/-- If exec answers a next state, it is the instruction's effect. -/
theorem exec_next (i : Instr) (s t : State) (h : exec i s = .next t) : t = effect i s := by
  cases i with
  | create d =>
    cases hp : parameterSet d with
    | none => simpa [exec, effect, execCreate, hp] using h.symm
    | some p => simpa [exec, effect, execCreate, hp] using h.symm
  | hash d bytes =>
    cases hp : parameterSet d with
    | none => simpa [exec, effect, execHash, hp] using h.symm
    | some p => simpa [exec, effect, execHash, hp, hashed] using h.symm
  | xorStateByte i v =>
    simp only [exec, execXorStateByte] at h
    split at h
    · cases h; rfl
    · cases h
  | absorbBlock p =>
    simp only [exec, execAbsorbBlock] at h
    split at h
    · cases h; rfl
    · cases h
  | bufAppend v =>
    simp only [exec, execBufAppend] at h
    split at h
    · cases h; rfl
    · cases h
  | pad =>
    simp only [exec, execPad] at h
    split at h
    · cases h; rfl
    · cases h
  | update data => cases h; rfl
  | finalize => cases h; rfl
  | reset => cases h; rfl
  | hexenc => cases h; rfl
  | theta => cases h; rfl
  | rho => cases h; rfl
  | pi => cases h; rfl
  | chi => cases h; rfl
  | iota ir => cases h; rfl
  | round ir => cases h; rfl
  | keccakF => cases h; rfl
  | squeeze => cases h; rfl

end Sys2Proof.Machine
end

