-- ==== Sys2Proof/Laws/Lanes.lean ====
section
/-! SUPPORT. The small lemmas of the lane views: reading what ofCoords wrote, states equal lane by lane, and what the
flattened state holds at each index. -/

namespace Sys2Proof.Machine

/-- Reading lane (x,y) of a state given lane by lane (R91). -/
@[simp] theorem lane_ofCoords (f : Fin 5 → Fin 5 → Lane) (x y : Fin 5) : lane (ofCoords f) x y = f x y := by
  fin_cases x <;> fin_cases y <;> rfl

/-- Two states are equal when they are equal lane by lane. -/
theorem lanes_ext {A B : Lanes} (h : ∀ x y, lane A x y = lane B x y) : A = B := by
  apply Vector.ext
  intro i hi
  have key := h ⟨i % 5, by omega⟩ ⟨i / 5, by omega⟩
  have hL : laneNumber ⟨i % 5, by omega⟩ ⟨i / 5, by omega⟩ = ⟨i, hi⟩ := Fin.ext (by simp [laneNumber]; omega)
  simpa [lane, hL] using key

@[simp] theorem lane_zeroLanes (x y : Fin 5) : lane zeroLanes x y = 0#64 := by
  simp [zeroLanes]

theorem lane_theta (A : Lanes) (x y : Fin 5) :
    lane (theta A) x y = lane A x y ^^^ (columnParity A (x + 4) ^^^ rol (columnParity A (x + 1)) 1) := by
  simp [theta]

theorem lane_rho (A : Lanes) (x y : Fin 5) : lane (rho A) x y = rol (lane A x y) RHO[laneNumber x y] := by
  simp [rho]

theorem lane_pi (A : Lanes) (x y : Fin 5) : lane (pi A) x y = lane A (x + 3 * y) x := by
  simp [pi]

theorem lane_chi (A : Lanes) (x y : Fin 5) :
    lane (chi A) x y = lane A x y ^^^ ((~~~ lane A (x + 1) y) &&& lane A (x + 2) y) := by
  simp [chi]

theorem lane_iota_origin (A : Lanes) (ir : Fin 24) : lane (iota A ir) 0 0 = lane A 0 0 ^^^ RC[ir] := by
  simp [lane, iota, laneNumber]

theorem lane_iota_other (A : Lanes) (ir : Fin 24) (x y : Fin 5) (h : ¬(x = 0 ∧ y = 0)) :
    lane (iota A ir) x y = lane A x y := by
  have hne : (0 : Nat) ≠ x.val + 5 * y.val := by
    intro h0
    exact h ⟨Fin.ext (by simp; omega), Fin.ext (by simp; omega)⟩
  simp [lane, iota, laneNumber, hne]

@[simp] theorem laneBytes_length (a : Lane) : (laneBytes a).length = 8 := rfl

theorem laneBytes_getElem? (a : Lane) (k : Nat) (h : k < 8) : (laneBytes a)[k]? = some (laneByte a k) := by
  interval_cases k <;> rfl

/-- A piece of the flattened form of lanes of eight bytes each. -/
theorem flatMap_laneBytes_getElem? (l : List Lane) (i : Nat) (h : i / 8 < l.length) :
    (l.flatMap laneBytes)[i]? = some (laneByte l[i / 8] (i % 8)) := by
  induction l generalizing i with
  | nil => simp at h
  | cons a l ih =>
    rw [List.flatMap_cons]
    by_cases hi : i < 8
    · have h0 : i / 8 = 0 := by omega
      have hm : i % 8 = i := by omega
      rw [List.getElem?_append_left (by simpa using hi), laneBytes_getElem? a i hi]
      simp [h0, hm]
    · have hlen : (i - 8) / 8 < l.length := by
        simp only [List.length_cons] at h
        omega
      rw [List.getElem?_append_right (by simpa using hi), laneBytes_length, ih (i - 8) hlen]
      have hq : i / 8 = (i - 8) / 8 + 1 := by omega
      have hr : (i - 8) % 8 = i % 8 := by omega
      simp [hq, hr]

@[simp] theorem stateBytes_length (A : Lanes) : (stateBytes A).length = 200 := by
  simp [stateBytes, List.length_flatMap]

/-- S[i] in the flattened state is byte i mod 8 of lane i div 8 (R22). -/
theorem stateBytes_getElem? (A : Lanes) (i : Fin 200) : (stateBytes A)[i.val]? = some (stateByte A i) := by
  have h : i.val / 8 < A.toList.length := by simp; omega
  rw [stateBytes, flatMap_laneBytes_getElem? _ _ h]
  simp [stateByte]

/-! ### The one byte-wide write, in the byte view (R110) -/

theorem laneByte_xor (a b : Lane) (k : Nat) : laneByte (a ^^^ b) k = laneByte a k ^^^ laneByte b k := by
  ext j hj
  simp [laneByte]

/-- Byte `k'` of a byte placed at `k`. -/
theorem laneByte_placeByte (v : Byte) (k k' : Nat) (hk : k < 8) (hk' : k' < 8) :
    laneByte (placeByte v k) k' = if k' = k then v else 0#8 := by
  ext j hj
  simp only [laneByte, placeByte, BitVec.getElem_setWidth, BitVec.getLsbD_ushiftRight, BitVec.getLsbD_shiftLeft,
    BitVec.getLsbD_setWidth]
  split
  · subst k'
    have h1 : 8 * k + j < 64 := by omega
    have h2 : ¬ 8 * k + j < 8 * k := by omega
    have h3 : 8 * k + j - 8 * k = j := by omega
    have h4 : j < 64 := by omega
    simp [h1, h3, h4, BitVec.getLsbD_eq_getElem hj]
  · by_cases h2 : 8 * k' + j < 8 * k
    · simp [h2]
    · have h3 : 8 ≤ 8 * k' + j - 8 * k := by omega
      simp [BitVec.getLsbD_of_ge v _ h3]

/-- XorStateByte changes byte i of S by v and no other byte: "S[i] <- S[i] ^ v, all other bytes of S unchanged" (R110). -/
theorem stateByte_xorStateByte (A : Lanes) (i j : Fin 200) (v : Byte) :
    stateByte (xorStateByte A i.val v) j = if j = i then stateByte A j ^^^ v else stateByte A j := by
  have hi : i.val / 8 < 25 := by omega
  simp only [stateByte, xorStateByte, hi, dite_true, Vector.getElem_set]
  by_cases hL : i.val / 8 = j.val / 8
  · have hk := laneByte_placeByte v (i.val % 8) (j.val % 8) (by omega) (by omega)
    simp only [hL, if_true, laneByte_xor, hk]
    by_cases hji : j = i
    · simp [hji]
    · have hne : j.val % 8 ≠ i.val % 8 := fun h => hji (Fin.ext (by omega))
      simp [hji, hne]
  · have hji : j ≠ i := fun h => hL (by rw [h])
    simp [hL, hji]

/-- The XOR of a sequence of bytes from index i on, in the byte view. -/
theorem stateByte_xorBytesFrom (p : List Byte) (A : Lanes) (i : Nat) (h : i + p.length ≤ 200) (j : Fin 200) :
    stateByte (xorBytesFrom A i p) j =
      if i ≤ j.val then
        match p[j.val - i]? with
        | some b => stateByte A j ^^^ b
        | none => stateByte A j
      else stateByte A j := by
  induction p generalizing A i with
  | nil => simp [xorBytesFrom]
  | cons v vs ih =>
    simp only [List.length_cons] at h
    rw [xorBytesFrom, ih _ _ (by omega)]
    have hx := stateByte_xorStateByte A ⟨i, by omega⟩ j v
    simp only at hx
    rw [hx]
    by_cases h1 : i + 1 ≤ j.val
    · have h2 : j.val - i = (j.val - (i + 1)) + 1 := by omega
      have h3 : i ≤ j.val := by omega
      have h4 : j ≠ ⟨i, by omega⟩ := fun e => by simp [e] at h1
      simp [h1, h2, h3, h4]
    · by_cases h2 : j.val = i
      · have h4 : j = ⟨i, by omega⟩ := Fin.ext h2
        simp [h4]
      · have h3 : ¬ i ≤ j.val := by omega
        have h4 : j ≠ ⟨i, by omega⟩ := fun e => h2 (by rw [e])
        simp [h1, h3, h4]

/-- The XOR of a block in the byte view (R111): byte i of the block meets byte i of S; the bytes after it stay. -/
theorem stateByte_xorBlock (p : List Byte) (A : Lanes) (h : p.length ≤ 200) (j : Fin 200) :
    stateByte (xorBlock A p) j =
      match p[j.val]? with
      | some b => stateByte A j ^^^ b
      | none => stateByte A j := by
  simpa [xorBlock] using stateByte_xorBytesFrom p A 0 (by simpa using h) j

/-! ### ROL (R10) -/

/-- Bit `j` of a rotated lane is the bit of the lane that moves there. -/
theorem getLsbD_rol (a : Lane) (n j : Nat) (hn : n < 64) (hj : j < 64) :
    (rol a n).getLsbD j = a.getLsbD ((j + (64 - n)) % 64) := by
  simp only [rol, BitVec.getLsbD_or, BitVec.getLsbD_shiftLeft, BitVec.getLsbD_ushiftRight]
  by_cases h : j < n
  · have e : (j + (64 - n)) % 64 = 64 - n + j := by omega
    simp [h, e]
  · have e : (j + (64 - n)) % 64 = j - n := by omega
    have h2 : 64 ≤ 64 - n + j := by omega
    simp [h, hj, e, BitVec.getLsbD_of_ge a _ h2]

theorem lane_ext_bits {a b : Lane} (h : ∀ j, j < 64 → a.getLsbD j = b.getLsbD j) : a = b :=
  BitVec.eq_of_getLsbD_eq h

@[simp] theorem rol_zero (n : Nat) : rol 0#64 n = 0#64 := by
  simp [rol]

/-- ROL distributes over XOR. -/
theorem rol_xor (a b : Lane) (n : Nat) (hn : n < 64) : rol (a ^^^ b) n = rol a n ^^^ rol b n := by
  apply lane_ext_bits
  intro j hj
  simp [getLsbD_rol _ n j hn hj]

/-- Two rotations are one. -/
theorem rol_rol (a : Lane) (m n : Nat) (hm : m < 64) (hn : n < 64) : rol (rol a m) n = rol a ((m + n) % 64) := by
  apply lane_ext_bits
  intro j hj
  rw [getLsbD_rol _ n j hn hj, getLsbD_rol _ m _ hm (Nat.mod_lt _ (by decide)),
    getLsbD_rol _ _ j (Nat.mod_lt _ (by decide)) hj]
  congr 1
  omega

end Sys2Proof.Machine
end

