-- ==== Sys2Proof/Laws/Sponge.lean ====
section
/-! SUPPORT. The sponge's operations, said once: the parameter set's bounds, PAD's block as buffer and padding, the block
XOR a lane at a time, and BUF_APPEND as "the message grows by one byte". -/

namespace Sys2Proof.Machine

/-! ### The parameter sets -/

theorem rateBytes_bounds (d : DigestSize) : 72 ≤ d.rateBytes ∧ d.rateBytes ≤ 144 ∧ d.rateBytes % 8 = 0 := by
  cases d <;> decide

theorem digestBytes_bounds (d : DigestSize) : 0 < d.digestBytes ∧ d.digestBytes ≤ 64 ∧ d.digestBytes ≤ d.rateBytes := by
  cases d <;> decide

@[simp] theorem squeezeBytes_length (d : DigestSize) (A : Lanes) : (squeezeBytes d A).length = d.digestBytes := by
  have := digestBytes_bounds d
  simp [squeezeBytes]
  omega

@[simp] theorem invalidDigest_length (d : DigestSize) : (invalidDigest d).length = d.digestBytes := by
  simp [invalidDigest]

/-- SQUEEZE's result, byte by byte (R114). -/
theorem squeezeBytes_getElem? (d : DigestSize) (A : Lanes) (i : Fin 200) (h : i.val < d.digestBytes) :
    (squeezeBytes d A)[i.val]? = some (stateByte A i) := by
  rw [squeezeBytes, List.getElem?_take_of_lt h, stateBytes_getElem?]

/-! ### PAD -/

@[simp] theorem padBlock_length (r : Nat) (buf : List Byte) : (padBlock r buf).length = r := by
  simp [padBlock]

theorem padding_length (r q : Nat) (h : q < r) : (padding r q).length = r - q := by
  unfold padding
  split
  · simp; omega
  · simp; omega

/-- PAD's block is the buffered bytes and then the padding of its two cases (R113). -/
theorem padBlock_eq (r : Nat) (buf : List Byte) (h : buf.length < r) : padBlock r buf = buf ++ padding r buf.length := by
  apply List.ext_getElem
  · simp [padding_length _ _ h]; omega
  · intro i h1 h2
    simp only [padBlock_length] at h1
    simp only [padBlock, List.getElem_map, List.getElem_range, padByte, padding, Config.suffixByte, Config.finalBitByte]
    rcases Nat.lt_trichotomy i buf.length with hi | hi | hi
    · have hr : i ≠ r - 1 := by omega
      simp [hi, hr, List.getElem_append_left]
    · subst hi
      by_cases hr : buf.length = r - 1
      · simp [← hr]
      · simp [hr]
    · have hn : buf[i]? = none := by simp; omega
      have hne : i ≠ buf.length := by omega
      have hq : buf.length ≠ r - 1 := by omega
      simp only [hn, hne, if_false, hq]
      rw [List.getElem_append_right (by omega)]
      have hi1 : i - buf.length = (i - buf.length - 1) + 1 := by omega
      rw [List.getElem_cons, dif_neg (by omega)]
      by_cases hr : i = r - 1
      · rw [List.getElem_append_right (by simp; omega)]
        simp [hr]
      · rw [List.getElem_append_left (by simp; omega)]
        simp [hr]

/-! ### Whole blocks of a message that grows -/

theorem lastBytes_length (r : Nat) (m : List Byte) : (lastBytes r m).length = m.length % r := by
  have := Nat.div_add_mod m.length r
  have hc : m.length / r * r = r * (m.length / r) := Nat.mul_comm _ _
  simp [lastBytes]
  omega

@[simp] theorem wholeBlocks_length (r : Nat) (m : List Byte) : (wholeBlocks r m).length = m.length / r := by
  simp [wholeBlocks]

theorem wholeBlocks_of_lt (r : Nat) (m : List Byte) (h : m.length < r) : wholeBlocks r m = [] := by
  simp [wholeBlocks, Nat.div_eq_of_lt h]

theorem lastBytes_of_lt (r : Nat) (m : List Byte) (h : m.length < r) : lastBytes r m = m := by
  simp [lastBytes, Nat.div_eq_of_lt h]

/-- The blocks of a longer message begin with those of a shorter one. -/
theorem block_append (r k : Nat) (m t : List Byte) (h : k < m.length / r) :
    ((m ++ t).drop (k * r)).take r = (m.drop (k * r)).take r := by
  have h1 : (k + 1) * r ≤ m.length := Nat.le_trans (Nat.mul_le_mul_right r h) (Nat.div_mul_le_self _ _)
  rw [Nat.add_mul] at h1
  rw [List.drop_append_of_le_length (by omega), List.take_append_of_le_length (by simp; omega)]

/-- Bytes that do not fill the block leave the whole blocks as they are. -/
theorem wholeBlocks_append_of_lt (r : Nat) (m t : List Byte) (h : m.length % r + t.length < r) :
    wholeBlocks r (m ++ t) = wholeBlocks r m := by
  have hd : (m ++ t).length / r = m.length / r := by
    have hm := Nat.div_add_mod m.length r
    rw [List.length_append, ← hm, Nat.add_assoc, Nat.mul_add_div (by omega), Nat.div_eq_of_lt h, Nat.add_zero]
    simp [Nat.mul_add_div (show 0 < r by omega), Nat.div_eq_of_lt (Nat.mod_lt m.length (show 0 < r by omega))]
  unfold wholeBlocks
  rw [hd]
  apply List.map_congr_left
  intro k hk
  exact block_append r k m t (List.mem_range.mp hk)

/-- Bytes that fill the block exactly complete one more. -/
theorem wholeBlocks_append_of_eq (r : Nat) (m t : List Byte) (hr : 0 < r) (h : m.length % r + t.length = r) :
    wholeBlocks r (m ++ t) = wholeBlocks r m ++ [lastBytes r m ++ t] := by
  have hm := Nat.div_add_mod m.length r
  have hlen : (m ++ t).length = (m.length / r + 1) * r := by
    have hc : m.length / r * r = r * (m.length / r) := Nat.mul_comm _ _
    rw [List.length_append, Nat.add_mul]
    omega
  have hd : (m ++ t).length / r = m.length / r + 1 := by
    rw [hlen, Nat.mul_div_cancel _ hr]
  unfold wholeBlocks
  rw [hd, List.range_succ, List.map_append]
  congr 1
  · apply List.map_congr_left
    intro k hk
    exact block_append r k m t (List.mem_range.mp hk)
  · have hle : m.length / r * r ≤ m.length := Nat.div_mul_le_self _ _
    rw [List.map_singleton, List.drop_append_of_le_length hle, lastBytes]
    congr 1
    apply List.take_of_length_le
    simp only [List.length_append] at hlen ⊢
    rw [Nat.add_mul] at hlen
    simp
    omega

theorem lastBytes_append_of_lt (r : Nat) (m t : List Byte) (h : m.length % r + t.length < r) :
    lastBytes r (m ++ t) = lastBytes r m ++ t := by
  have hd := congrArg List.length (wholeBlocks_append_of_lt r m t h)
  simp only [wholeBlocks_length] at hd
  rw [lastBytes, hd, lastBytes, List.drop_append_of_le_length (Nat.div_mul_le_self _ _)]

theorem lastBytes_append_of_eq (r : Nat) (m t : List Byte) (h : m.length % r + t.length = r) :
    lastBytes r (m ++ t) = [] := by
  apply List.eq_nil_of_length_eq_zero
  have hm := Nat.div_add_mod m.length r
  rw [lastBytes_length, List.length_append, ← hm, Nat.add_assoc, h, Nat.mul_add_mod, Nat.mod_self]

/-- The padded message: the whole blocks, and one block of the rest and the padding. -/
theorem wholeBlocks_padMessage (r : Nat) (m : List Byte) (hr : 0 < r) :
    wholeBlocks r (padMessage r m) = wholeBlocks r m ++ [lastBytes r m ++ padding r (m.length % r)] := by
  have hlt := Nat.mod_lt m.length hr
  apply wholeBlocks_append_of_eq _ _ _ hr
  rw [padding_length _ _ hlt]
  omega

/-! ### Absorbing -/

/-- The blocks absorbed one after another in the engine's own form of the XOR (R111). -/
def absorbBlocksByByte (A : Lanes) (blocks : List (List Byte)) : Lanes :=
  blocks.foldl (fun B p => keccakF (xorBlock B p)) A

@[simp] theorem absorbBlocksByByte_nil (A : Lanes) : absorbBlocksByByte A [] = A := rfl

@[simp] theorem absorbBlocksByByte_snoc (A : Lanes) (ps : List (List Byte)) (p : List Byte) :
    absorbBlocksByByte A (ps ++ [p]) = keccakF (xorBlock (absorbBlocksByByte A ps) p) := by
  simp [absorbBlocksByByte]

/-- BUF_APPEND: the engine that holds `m` from the lanes `A` on holds `m ++ [v]` after it (R112). -/
theorem append_eq (s : State) (A : Lanes) (m : List Byte) (v : Byte)
    (hl : s.lanes = absorbBlocksByByte A (wholeBlocks s.rateBytes m)) (hb : s.buf = lastBytes s.rateBytes m) :
    s.append v =
      { s with lanes := absorbBlocksByByte A (wholeBlocks s.rateBytes (m ++ [v])),
               buf := lastBytes s.rateBytes (m ++ [v]), ir := (s.append v).ir } := by
  have hr : 0 < s.rateBytes := by
    have := rateBytes_bounds s.dsz
    simp only [State.rateBytes]
    omega
  have hlt := Nat.mod_lt m.length hr
  have hcnt : s.cnt = m.length % s.rateBytes := by rw [State.cnt, hb, lastBytes_length]
  unfold State.append
  rw [hcnt]
  split
  · next h =>
    rw [wholeBlocks_append_of_eq _ _ _ hr (by simpa using h), lastBytes_append_of_eq _ _ _ (by simpa using h)]
    simp [hl, hb]
  · next h =>
    have h' : m.length % s.rateBytes + [v].length < s.rateBytes := by simp; omega
    rw [wholeBlocks_append_of_lt _ _ _ h', lastBytes_append_of_lt _ _ _ h', ← hl, ← hb]

/-- UPDATE's loop in closed form: "the blocks absorbed are the successive R-byte pieces of BUF[0..c−1] ++ data; the
remaining bytes are the new buffer contents" (R122). -/
theorem absorbBytes_from (data : List Byte) (s : State) (A : Lanes) (m : List Byte)
    (hl : s.lanes = absorbBlocksByByte A (wholeBlocks s.rateBytes m)) (hb : s.buf = lastBytes s.rateBytes m) :
    s.absorbBytes data =
      { s with lanes := absorbBlocksByByte A (wholeBlocks s.rateBytes (m ++ data)),
               buf := lastBytes s.rateBytes (m ++ data), ir := (s.absorbBytes data).ir } := by
  induction data generalizing s m with
  | nil => simp [State.absorbBytes, ← hl, ← hb]
  | cons v vs ih =>
    have step := append_eq s A m v hl hb
    have hrate : (s.append v).rateBytes = s.rateBytes := by simp [State.rateBytes]
    have key := ih (s.append v) (m ++ [v]) (by rw [hrate, step]) (by rw [hrate, step])
    rw [show s.absorbBytes (v :: vs) = (s.append v).absorbBytes vs from rfl, key, hrate]
    rw [step]
    simp

/-! ### The block XOR a lane at a time (R116) -/

theorem laneByte_laneOfBytes (l : List Byte) (k : Nat) (hk : k < 8) :
    laneByte (laneOfBytes l) k = match l[k]? with | some b => b | none => 0#8 := by
  induction l generalizing k with
  | nil => ext j hj; simp [laneOfBytes, laneByte]
  | cons b bs ih =>
    ext j hj
    cases k with
    | zero =>
      simp [laneOfBytes, laneByte]
    | succ k =>
      have hb : 8 ≤ 8 * (k + 1) + j := by omega
      have key := congrArg (fun b : Byte => b.getLsbD j) (ih k (by omega))
      have h1 : 8 * (k + 1) + j - 8 = 8 * k + j := by omega
      have h2 : 8 * (k + 1) + j < 64 := by omega
      have h3 : ¬ 8 * (k + 1) + j < 8 := by omega
      simp only [laneByte, BitVec.getLsbD_setWidth, BitVec.getLsbD_ushiftRight, hj, decide_true, Bool.true_and] at key
      simp only [laneOfBytes, laneByte, BitVec.getElem_setWidth, BitVec.getLsbD_ushiftRight, BitVec.getLsbD_or,
        BitVec.getLsbD_setWidth, BitVec.getLsbD_shiftLeft, h1, h2, h3, List.getElem?_cons_succ]
      rw [key, BitVec.getLsbD_of_ge b _ hb, ← BitVec.getLsbD_eq_getElem]
      simp

/-- Two states are equal when all their bytes are. -/
theorem lanes_ext_bytes {A B : Lanes} (h : ∀ i, stateByte A i = stateByte B i) : A = B := by
  apply Vector.ext
  intro L hL
  apply BitVec.eq_of_getElem_eq
  intro j hj
  have key := congrArg (fun b : Byte => b.getLsbD (j % 8)) (h ⟨8 * L + j / 8, by omega⟩)
  have h1 : (8 * L + j / 8) / 8 = L := by omega
  have h2 : (8 * L + j / 8) % 8 = j / 8 := by omega
  have h3 : 8 * (j / 8) + j % 8 = j := by omega
  have h4 : j % 8 < 8 := by omega
  simpa [stateByte, laneByte, h1, h2, h3, h4, BitVec.getLsbD_eq_getElem hj] using key

/-- The XOR of a block byte by byte and lane by lane are the same (R116). -/
theorem xorBlock_eq_lanes (A : Lanes) (p : List Byte) (h : p.length ≤ 200) : xorBlock A p = xorBlockLanes A p := by
  apply lanes_ext_bytes
  intro i
  rw [stateByte_xorBlock p A h i]
  have hx : i.val / 8 % 5 + 5 * (i.val / 8 / 5) = i.val / 8 := by omega
  have hread : (xorBlockLanes A p)[i.val / 8]'(by omega) =
      A[i.val / 8]'(by omega) ^^^ laneOfBytes ((p.drop (8 * (i.val / 8))).take 8) := by
    have := lane_ofCoords
      (fun x y => lane A x y ^^^ laneOfBytes ((p.drop (8 * (laneNumber x y).val)).take 8))
      ⟨i.val / 8 % 5, by omega⟩ ⟨i.val / 8 / 5, by omega⟩
    simpa [xorBlockLanes, lane, laneNumber, hx] using this
  have hk : i.val % 8 < 8 := by omega
  have hi : 8 * (i.val / 8) + i.val % 8 = i.val := by omega
  rw [stateByte, stateByte, hread, laneByte_xor, laneByte_laneOfBytes _ _ hk]
  simp only [List.getElem?_take, List.getElem?_drop, hk, if_true, hi]
  cases p[i.val]? <;> simp

end Sys2Proof.Machine
end

