-- ==== Sys2Proof/Laws/Sha3.lean ====
section
/-! SUPPORT. The digest of a whole message in terms of the engine's buffer, and the inversion lemma of the host commands:
each ends in one response. -/

namespace Sys2Proof.Machine

/-! ### From the buffer to the message -/

@[simp] theorem absorbBlocks_nil (A : Lanes) : absorbBlocks A [] = A := rfl

theorem absorbBlocks_snoc (A : Lanes) (ps : List (List Byte)) (p : List Byte) :
    absorbBlocks A (ps ++ [p]) = keccakF (xorBlockLanes (absorbBlocks A ps) p) := by
  unfold absorbBlocks
  rw [List.foldl_append]
  rfl

theorem absorbBlocksByByte_eq (A : Lanes) (ps : List (List Byte)) (h : ∀ q ∈ ps, q.length ≤ 200) :
    absorbBlocksByByte A ps = absorbBlocks A ps := by
  induction ps using List.reverseRecOn with
  | nil => rw [absorbBlocksByByte_nil, absorbBlocks_nil]
  | append_singleton qs q ih =>
    rw [absorbBlocksByByte_snoc, absorbBlocks_snoc, ih (fun x hx => h x (by simp [hx])),
      xorBlock_eq_lanes _ _ (h q (by simp))]

theorem wholeBlocks_mem_length (r : Nat) (m q : List Byte) (h : q ∈ wholeBlocks r m) : q.length ≤ r := by
  simp only [wholeBlocks, List.mem_map] at h
  obtain ⟨k, -, rfl⟩ := h
  simp

/-- The lanes FINALIZE leaves, for an engine that holds the message `m` from the lanes `A` on (R111, R113). -/
theorem finalLanes_of (s : State) (A : Lanes) (m : List Byte)
    (hl : s.lanes = absorbBlocksByByte A (wholeBlocks s.rateBytes m)) (hb : s.buf = lastBytes s.rateBytes m) :
    finalLanes s = absorbBlocks A (wholeBlocks s.rateBytes (padMessage s.rateBytes m)) := by
  have hd := rateBytes_bounds s.dsz
  have hr : 0 < s.rateBytes := by simp only [State.rateBytes]; omega
  have h200 : s.rateBytes ≤ 200 := by simp only [State.rateBytes]; omega
  have hlt := Nat.mod_lt m.length hr
  have hlen : s.buf.length = m.length % s.rateBytes := by rw [hb, lastBytes_length]
  rw [← absorbBlocksByByte_eq _ _ (fun q hq => Nat.le_trans (wholeBlocks_mem_length _ _ _ hq) h200),
    wholeBlocks_padMessage _ _ hr, absorbBlocksByByte_snoc, ← hl, ← hlen, ← hb, ← padBlock_eq _ _ (by omega), finalLanes]

/-- HASH's state in closed form (R126). -/
theorem hashed_spec (s : State) (p : DigestSize) (m : List Byte) :
    hashed s p m =
      { s with lanes := absorbBlocks zeroLanes (wholeBlocks p.rateBytes (padMessage p.rateBytes m)), buf := [],
               dsz := p, phase := .finalized, dig := sha3 p m, ir := none } := by
  have hb := rateBytes_bounds p
  have hr : 0 < p.rateBytes := by omega
  have hrate : (s.initialise p).rateBytes = p.rateBytes := rfl
  have key := absorbBytes_from m (s.initialise p) zeroLanes []
    (by rw [hrate, wholeBlocks_of_lt _ _ hr]; rfl)
    (by rw [hrate, lastBytes_of_lt _ _ hr]; rfl)
  rw [hrate] at key
  have hfl := finalLanes_of ((s.initialise p).absorbBytes m) zeroLanes m
    (by rw [absorbBytes_rateBytes, hrate, key]; rfl) (by rw [absorbBytes_rateBytes, hrate, key]; rfl)
  rw [absorbBytes_rateBytes, hrate] at hfl
  rw [hashed, finish_eq, hfl, sha3]
  rw [key]
  simp

/-! ### A response commutes with what follows it -/

theorem respond_append (t : State) (r : Response) (v : Byte) : (t.respond r).append v = (t.append v).respond r := by
  unfold State.append
  show (if t.cnt + 1 = t.rateBytes then _ else _) = _
  by_cases hc : t.cnt + 1 = t.rateBytes
  · simp only [if_pos hc]; simp [State.respond]
  · simp only [if_neg hc]; rfl

theorem respond_absorbBytes (data : List Byte) (t : State) (r : Response) :
    (t.respond r).absorbBytes data = (t.absorbBytes data).respond r := by
  induction data generalizing t with
  | nil => rfl
  | cons v vs ih =>
    show ((t.respond r).append v).absorbBytes vs = ((t.append v).absorbBytes vs).respond r
    rw [respond_append, ih]

theorem respond_finish (t : State) (r : Response) : (t.respond r).finish = t.finish.respond r := by
  rw [finish_eq, finish_eq]
  rfl

/-! ### The host commands -/

/-- A host command answers a next state with one new response, which is an error only if nothing else changed; only
FINALIZE and HASH answer a digest and only HEXENC a text. -/
theorem hostCommand_cases (i : Instr) (s : State) (h : isHostCommand i = true) :
    ∃ t r, exec i s = .next (t.respond r) ∧ t.responses = s.responses ∧ effect i s = t.respond r ∧
      ((∃ e, r = .error e) → t = s) ∧ ((∃ b, r = .digest b) → i = .finalize ∨ ∃ d m, i = .hash d m) ∧
      ((∃ b, r = .text b) → i = .hexenc) := by
  cases i with
  | create d =>
    cases hp : parameterSet d with
    | none => exact ⟨s, .error .invalidParameter, execCreate_illegal d s hp,
      rfl, by simp [effect, hp]; rfl, fun _ => rfl, by simp, by simp⟩
    | some p => exact ⟨_, _, execCreate_legal d p s hp, rfl, by simp [effect, hp], by simp, by simp, by simp⟩
  | update data =>
    by_cases hp : s.phase = .absorbing
    · exact ⟨_, _, execUpdate_absorbing data s hp,
      by simp, by simp [effect, State.inPhase, hp], by simp, by simp, by simp⟩
    · exact ⟨s, .error .invalidState, execUpdate_other data s hp,
      rfl, by simp [effect, State.inPhase, isAbsorbing_of_ne s hp]; rfl, fun _ => rfl, by simp, by simp⟩
  | finalize =>
    by_cases hp : s.phase = .absorbing
    · exact ⟨_, _, execFinalize_absorbing s hp, by rw [finish_eq],
      by simp [effect, State.inPhase, hp], by simp, by simp, by simp⟩
    · exact ⟨s, .error .invalidState, execFinalize_other s hp,
      rfl, by simp [effect, State.inPhase, isAbsorbing_of_ne s hp]; rfl, fun _ => rfl, by simp, by simp⟩
  | reset =>
    by_cases hp : s.phase = .uncreated
    · exact ⟨s, .error .invalidState, execReset_uncreated s hp,
      rfl, by simp [effect, State.inPhase, isCreated_of_eq s hp]; rfl, fun _ => rfl, by simp, by simp⟩
    · exact ⟨_, _, execReset_created s hp, rfl, by simp [effect, State.inPhase, hp], by simp, by simp, by simp⟩
  | hexenc =>
    by_cases hp : s.phase = .finalized
    · exact ⟨_, _, execHexenc_finalized s hp, rfl, by simp [effect, State.inPhase, hp], by simp, by simp, by simp⟩
    · exact ⟨s, .error .invalidState, execHexenc_other s hp,
      rfl, by simp [effect, State.inPhase, isFinalized_of_ne s hp]; rfl, fun _ => rfl, by simp, by simp⟩
  | hash d m =>
    cases hp : parameterSet d with
    | none => exact ⟨s, .error .invalidParameter, execHash_illegal d m s hp,
      rfl, by simp [effect, hp]; rfl, fun _ => rfl, by simp, by simp⟩
    | some p => exact ⟨_, _, execHash_legal d p m s hp, by rw [hashed_spec],
      by simp [effect, hp], by simp, by simp, by simp⟩
  | _ => cases h

theorem microOperation_responses (i : Instr) (s : State) (h : isHostCommand i = false) :
    (effect i s).responses = s.responses := by
  cases i <;> first | (cases h; done) | simp [effect]

end Sys2Proof.Machine
end

