-- ==== Sys2Proof/Laws/Effect.lean ====
section
/-! SUPPORT. What every instruction's effect leaves alone, field by field, and the bound of the buffer. -/

namespace Sys2Proof.Machine

/-! ### The derived views -/

@[simp] theorem respond_cnt (s : State) (r : Response) : (s.respond r).cnt = s.cnt := rfl
@[simp] theorem respond_rateBytes (s : State) (r : Response) : (s.respond r).rateBytes = s.rateBytes := rfl
@[simp] theorem respond_digestBytes (s : State) (r : Response) : (s.respond r).digestBytes = s.digestBytes := rfl
@[simp] theorem raise_cnt (s : State) (e : Error) : (s.raise e).cnt = s.cnt := rfl
@[simp] theorem raise_rateBytes (s : State) (e : Error) : (s.raise e).rateBytes = s.rateBytes := rfl
@[simp] theorem raise_digestBytes (s : State) (e : Error) : (s.raise e).digestBytes = s.digestBytes := rfl
@[simp] theorem append_rateBytes (s : State) (v : Byte) : (s.append v).rateBytes = s.rateBytes := by
  simp [State.rateBytes]

theorem absorbBytes_append (s : State) (a b : List Byte) :
    s.absorbBytes (a ++ b) = (s.absorbBytes a).absorbBytes b := by
  simp [State.absorbBytes]

/-- BUF_APPEND keeps CNT below R (R26). -/
theorem append_cnt_lt (s : State) (v : Byte) (h : s.cnt < s.rateBytes) : (s.append v).cnt < s.rateBytes := by
  have hb := rateBytes_bounds s.dsz
  have hr : s.rateBytes = s.dsz.rateBytes := rfl
  unfold State.append State.cnt
  split
  · simp only [List.length_nil]
    omega
  · simp only [State.cnt, List.length_append, List.length_singleton] at *
    omega

/-- UPDATE's loop keeps CNT below R (R26). -/
theorem absorbBytes_cnt_lt (data : List Byte) (s : State) (h : s.cnt < s.rateBytes) :
    (s.absorbBytes data).cnt < s.rateBytes := by
  induction data generalizing s with
  | nil => exact h
  | cons v vs ih =>
    have hv := ih (s.append v) (by rw [append_rateBytes]; exact append_cnt_lt s v h)
    rw [append_rateBytes] at hv
    exact hv

/-! ### Fields -/

theorem effect_ir (i : Instr) (s : State) (h : s.ir = none) : (effect i s).ir = none := by
  cases i with
  | create d => cases hp : parameterSet d <;> simp [effect, hp, h]
  | hash d m => cases hp : parameterSet d <;> simp [effect, hp, hashed_spec, h]
  | update data =>
    by_cases hp : s.phase = .absorbing <;>
      simp [effect, State.inPhase, hp, isAbsorbing_of_ne, h, absorbBytes_ir]
  | finalize =>
    by_cases hp : s.phase = .absorbing <;> simp [effect, State.inPhase, hp, isAbsorbing_of_ne, finish_eq, h]
  | reset => by_cases hp : s.phase = .uncreated <;> simp [effect, State.inPhase, hp, isCreated_of_eq, h]
  | hexenc => by_cases hp : s.phase = .finalized <;> simp [effect, State.inPhase, hp, isFinalized_of_ne, h]
  | bufAppend v => exact append_ir s v h
  | _ => simp [effect, h]

theorem effect_stream (i : Instr) (s : State) : (effect i s).stream = s.stream := by
  cases i with
  | create d => cases hp : parameterSet d <;> simp [effect, hp]
  | hash d m => cases hp : parameterSet d <;> simp [effect, hp, hashed_spec]
  | update data => by_cases hp : s.phase = .absorbing <;> simp [effect, State.inPhase, hp, isAbsorbing_of_ne]
  | finalize =>
    by_cases hp : s.phase = .absorbing <;> simp [effect, State.inPhase, hp, isAbsorbing_of_ne, finish_eq]
  | reset => by_cases hp : s.phase = .uncreated <;> simp [effect, State.inPhase, hp, isCreated_of_eq]
  | hexenc => by_cases hp : s.phase = .finalized <;> simp [effect, State.inPhase, hp, isFinalized_of_ne]
  | _ => simp [effect]

theorem effect_select (i : Instr) (s : State) : (effect i s).select = s.select := by
  cases i with
  | create d => cases hp : parameterSet d <;> simp [effect, hp]
  | hash d m => cases hp : parameterSet d <;> simp [effect, hp, hashed_spec]
  | update data => by_cases hp : s.phase = .absorbing <;> simp [effect, State.inPhase, hp, isAbsorbing_of_ne]
  | finalize =>
    by_cases hp : s.phase = .absorbing <;> simp [effect, State.inPhase, hp, isAbsorbing_of_ne, finish_eq]
  | reset => by_cases hp : s.phase = .uncreated <;> simp [effect, State.inPhase, hp, isCreated_of_eq]
  | hexenc => by_cases hp : s.phase = .finalized <;> simp [effect, State.inPhase, hp, isFinalized_of_ne]
  | _ => simp [effect]

theorem effect_dsz (i : Instr) (s : State) (h : Column.dsz ∉ writeMatrix i) : (effect i s).dsz = s.dsz := by
  cases i with
  | create d => simp [writeMatrix] at h
  | hash d m => simp [writeMatrix] at h
  | update data => by_cases hp : s.phase = .absorbing <;> simp [effect, State.inPhase, hp, isAbsorbing_of_ne]
  | finalize =>
    by_cases hp : s.phase = .absorbing <;> simp [effect, State.inPhase, hp, isAbsorbing_of_ne, finish_eq]
  | reset => by_cases hp : s.phase = .uncreated <;> simp [effect, State.inPhase, hp, isCreated_of_eq]
  | hexenc => by_cases hp : s.phase = .finalized <;> simp [effect, State.inPhase, hp, isFinalized_of_ne]
  | _ => simp [effect]

/-- Nothing returns an instance to Uncreated (R27). -/
theorem effect_created (i : Instr) (s : State) (h : s.phase ≠ .uncreated) : (effect i s).phase ≠ .uncreated := by
  cases i with
  | create d => cases hp : parameterSet d <;> simp [effect, hp, h]
  | hash d m => cases hp : parameterSet d <;> simp [effect, hp, hashed_spec, h]
  | update data => by_cases hp : s.phase = .absorbing <;> simp [effect, State.inPhase, hp, isAbsorbing_of_ne, h]
  | finalize =>
    by_cases hp : s.phase = .absorbing <;> simp [effect, State.inPhase, hp, isAbsorbing_of_ne, finish_eq, h]
  | reset => simp [effect, State.inPhase, h]
  | hexenc => by_cases hp : s.phase = .finalized <;> simp [effect, State.inPhase, hp, isFinalized_of_ne, h]
  | _ => simp [effect, h]

end Sys2Proof.Machine
end

