-- ==== Sys2Proof/Laws/Encoding.lean ====
section
/-! SUPPORT. The operand assembly read both ways, one command of the stream at a time, and what cutting a message into
UPDATE operands leaves. -/

namespace Sys2Proof

open Machine

/-! ### imm32 and len32 -/

theorem le32_lt (b0 b1 b2 b3 : Byte) : le32 b0 b1 b2 b3 < 4294967296 := by
  unfold le32
  omega

theorem le32_byteOf (u : Nat) (h : u < 4294967296) : le32 (byteOf u 0) (byteOf u 1) (byteOf u 2) (byteOf u 3) = u := by
  simp [le32, byteOf]
  omega

theorem le32Bytes_le32 (b0 b1 b2 b3 : Byte) : le32Bytes (le32 b0 b1 b2 b3) = [b0, b1, b2, b3] := by
  simp only [le32Bytes, byteOf, le32, List.cons.injEq, and_true]
  refine ⟨?_, ?_, ?_, ?_⟩ <;> (apply BitVec.eq_of_toNat_eq; simp; omega)

theorem imm32Of_lt (d : Int) : imm32Of d < 4294967296 := by
  unfold imm32Of
  omega

theorem sext32_imm32Of (d : Int) (h : fitsImm32 d = true) : sext32 (imm32Of d) = d := by
  simp only [fitsImm32, Bool.and_eq_true, decide_eq_true_eq] at h
  unfold sext32 imm32Of
  split <;> omega

theorem imm32Of_sext32 (u : Nat) (h : u < 4294967296) : imm32Of (sext32 u) = u := by
  unfold sext32 imm32Of
  split <;> omega

theorem fitsImm32_sext32 (u : Nat) (h : u < 4294967296) : fitsImm32 (sext32 u) = true := by
  simp only [fitsImm32, Bool.and_eq_true, decide_eq_true_eq]
  unfold sext32
  split <;> omega

/-! ### One command -/

theorem decodeCommand_create (d : Int) (rest : List Byte) (h : fitsImm32 d = true) :
    decodeCommand (encodeCreate d ++ rest) = .ok (.create d, rest) := by
  simp [encodeCreate, le32Bytes, decodeCommand, le32_byteOf _ (imm32Of_lt d), sext32_imm32Of d h]

theorem decodeCommand_update (data rest : List Byte) (h : data.length ≤ Config.lenMax) :
    decodeCommand (encodeUpdate data ++ rest) = .ok (.update data, rest) := by
  have h1 : Code.update ≠ Code.create := by decide
  simp only [Config.lenMax] at h
  simp [encodeUpdate, le32Bytes, decodeCommand, h1, le32_byteOf data.length (by omega)]

/-- What the stream's decoder reads is a host command, and never the pseudo-operation. -/
theorem decodeCommand_host (bytes rest : List Byte) (i : Instr) (h : decodeCommand bytes = .ok (i, rest)) :
    isHostCommand i = true ∧ ∀ d m, i ≠ .hash d m := by
  unfold decodeCommand at h
  split at h
  · cases h
  · split_ifs at h
    · split at h
      · cases h; simp [isHostCommand]
      · cases h
    · split at h
      · split_ifs at h; cases h; simp [isHostCommand]
      · cases h
    all_goals cases h; simp [isHostCommand]

/-- A stream decodes command by command. -/
theorem decodeStreamFuel_cons (fuel : Nat) (i : Instr) (own rest : List Byte) (hne : own ≠ [])
    (hd : decodeCommand (own ++ rest) = .ok (i, rest)) :
    decodeStreamFuel (fuel + 1) (own ++ rest) = (decodeStreamFuel fuel rest).map fun is => i :: is := by
  cases own with
  | nil => exact absurd rfl hne
  | cons b bs =>
    simp only [List.cons_append] at hd ⊢
    simp [decodeStreamFuel, hd]

/-! ### Pieces of a message -/

theorem cutMessage_flatten (fuel : Nat) (m : List Byte) : (cutMessage fuel m).flatten = m := by
  induction fuel generalizing m with
  | zero => simp [cutMessage]
  | succ n ih =>
    unfold cutMessage
    split
    · simp
    · simp [ih]

theorem cutMessage_length_le (fuel : Nat) (m : List Byte) (h : m.length ≤ (fuel + 1) * Config.lenMax) :
    ∀ p ∈ cutMessage fuel m, p.length ≤ Config.lenMax := by
  induction fuel generalizing m with
  | zero =>
    intro p hp
    simp only [cutMessage, List.mem_singleton] at hp
    subst hp
    omega
  | succ n ih =>
    intro p hp
    unfold cutMessage at hp
    split at hp
    · simp only [List.mem_singleton] at hp
      subst hp
      assumption
    · rcases List.mem_cons.mp hp with rfl | hp
      · simp
      · refine ih (m.drop Config.lenMax) ?_ p hp
        have e : (n + 1 + 1) * Config.lenMax = (n + 1) * Config.lenMax + Config.lenMax := by ring
        simp only [List.length_drop]
        omega

end Sys2Proof
end

