-- ==== Sys2Proof/Laws/PerInstr.lean ====
section
/-! SUPPORT. Facts about every instruction as syntax, one lemma per constructor. -/

namespace Sys2Proof.Laws.CodeByte

/-- The code that spec/opcode_table.json gives the instruction; HASH has none of its own, and begins with CREATE's. -/
def code : Instr → Byte
  | .create _ => 0x01#8
  | .update _ => 0x02#8
  | .finalize => 0x03#8
  | .reset => 0x04#8
  | .hexenc => 0x05#8
  | .theta => 0x10#8
  | .rho => 0x11#8
  | .pi => 0x12#8
  | .chi => 0x13#8
  | .iota _ => 0x14#8
  | .round _ => 0x15#8
  | .keccakF => 0x16#8
  | .xorStateByte _ _ => 0x17#8
  | .absorbBlock _ => 0x18#8
  | .bufAppend _ => 0x19#8
  | .pad => 0x1A#8
  | .squeeze => 0x1B#8
  | .hash _ _ => 0x01#8

/-- The first byte of a packet: the command code or the select code. -/
def firstByte : Packet → Option Byte
  | .host bytes => bytes.head?
  | .micro m => some m.code

/-- The encoding of an instruction begins with the code the table gives it. -/
def Statement (i : Instr) : Prop :=
  firstByte (encode i) = some (code i)

theorem create (d : Int) : Statement (.create d) := rfl
theorem update (data : List Byte) : Statement (.update data) := rfl
theorem finalize : Statement .finalize := rfl
theorem reset : Statement .reset := rfl
theorem hexenc : Statement .hexenc := rfl
theorem theta : Statement .theta := rfl
theorem rho : Statement .rho := rfl
theorem pi : Statement .pi := rfl
theorem chi : Statement .chi := rfl
theorem iota (ir : Fin 24) : Statement (.iota ir) := rfl
theorem round (ir : Fin 24) : Statement (.round ir) := rfl
theorem keccakF : Statement .keccakF := rfl
theorem xorStateByte (i : Fin 200) (v : Byte) : Statement (.xorStateByte i v) := rfl
theorem absorbBlock (p : List Byte) : Statement (.absorbBlock p) := rfl
theorem bufAppend (v : Byte) : Statement (.bufAppend v) := rfl
theorem pad : Statement .pad := rfl
theorem squeeze : Statement .squeeze := rfl
theorem hash (d : Int) (bytes : List Byte) : Statement (.hash d bytes) := rfl

end Sys2Proof.Laws.CodeByte
end

