-- ==== Sys2Proof/Laws/Step.lean ====
section
/-! SUPPORT. The inversion lemma of a step: everything a step that answers a next state can have done; and a run of the
host's machine one step at a time. -/

namespace Sys2Proof.Machine

/-- A step waits, or runs one command of the stream, or runs the micro-operation at the sequencer's interface. -/
theorem step_next_cases (s t : State) (h : step s = .next t) :
    (s.select = none ∧ s.stream = [] ∧ t = s) ∨
      (∃ i rest, s.select = none ∧ decodeCommand s.stream = .ok (i, rest) ∧ t = effect i { s with stream := rest }) ∨
      ∃ w i, s.select = some w ∧ decodeSelect w = .ok i ∧ t = effect i { s with select := none } := by
  unfold step State.fetch at h
  cases hs : s.select with
  | some w =>
    rw [hs] at h
    dsimp only [decode] at h
    cases hd : decodeSelect w with
    | error e => rw [hd] at h; cases h
    | ok i =>
      rw [hd] at h
      exact .inr (.inr ⟨w, i, rfl, hd, exec_next i _ t h⟩)
  | none =>
    rw [hs] at h
    cases hst : s.stream with
    | nil => rw [hst] at h; cases h; exact .inl ⟨rfl, rfl, rfl⟩
    | cons b bs =>
      rw [hst] at h
      dsimp only [decode] at h
      cases hd : decodeCommand (b :: bs) with
      | error e => rw [hd] at h; cases h
      | ok r =>
        obtain ⟨i, rest⟩ := r
        rw [hd] at h
        exact .inr (.inl ⟨i, rest, rfl, rfl, exec_next i _ t h⟩)

/-- A machine's run, its first step apart. -/
theorem run_succ (M : Host.Core) (k : Nat) (s t : M.State) (h : M.step s = .next t) : M.run (k + 1) s = M.run k t := by
  simp [Host.Core.run, h]

end Sys2Proof.Machine
end

