-- ==== Sys2Proof/Tests/Slice0.lean ====
section
/-! SUPPORT. The model's own tests. Every expected value is the spec's: the encodings of spec/30_encoding.md and
spec/95_test_vectors.md section 2.12, the vectors of its sections 2 and 3, and the examples of the rules named. -/

namespace Sys2Proof.Tests

open Sys2Proof Sys2Proof.Machine

/-! ## Helpers -/

/-- The next state of an outcome. -/
def nextOf : Host.Outcome State Fault Refusal → Option State
  | .next s => some s
  | _ => none

/-- The fault of an outcome. -/
def faultOf : Host.Outcome State Fault Refusal → Option Fault
  | .fault f => some f
  | _ => none

/-- The refusal of an outcome. -/
def refusalIn : Host.Outcome State Fault Refusal → Option Refusal
  | .refused r => some r
  | _ => none

/-- What the decoder reads. -/
def decoded (p : Packet) : Option (Instr × List Byte) :=
  match decode p with
  | .ok r => some r
  | .error _ => none

/-- An absorbing instance with these lanes and buffered bytes. -/
def absorbing (d : DigestSize) (A : Lanes) (buf : List Byte) : State :=
  { State.reset with lanes := A, buf := buf, dsz := d, phase := .absorbing, dig := List.replicate d.digestBytes 0#8 }

/-- A finalized instance with this digest register. -/
def finalized (d : DigestSize) (dig : List Byte) : State :=
  { State.reset with buf := [], dsz := d, phase := .finalized, dig := dig }

/-- Lanes that are zero but for one. -/
def oneLane (x y : Fin 5) (a : Lane) : Lanes :=
  ofCoords fun u v => if u = x ∧ v = y then a else 0#64

/-- The lanes after an instruction, as a list in the order L = x + 5y. -/
def lanesAfter (i : Instr) (A : Lanes) : Option (List Lane) :=
  (nextOf (exec i (absorbing .d512 A []))).map fun t => t.lanes.toList

/-- The new responses after an instruction. -/
def responsesAfter (i : Instr) (s : State) : Option (List Response) :=
  (nextOf (exec i s)).map State.responses

/-! ## WellFormed refuses an ill-formed term of each check -/

theorem test_wf_create_bounds :
    (Instr.create 2147483648).wellFormed = false ∧ (Instr.create (-2147483649)).wellFormed = false ∧
      (Instr.create 2147483647).wellFormed = true ∧ (Instr.create (-2147483648)).wellFormed = true := by decide

theorem test_wf_hash_bounds :
    (Instr.hash 2147483648 []).wellFormed = false ∧ (Instr.hash (-2147483648) [0x61#8]).wellFormed = true := by decide

/-- An operand of 2^32 bytes has no len32 (R75). -/
theorem test_wf_update_too_long (data : List Byte) (h : data.length = 4294967296) :
    (Instr.update data).wellFormed = false := by
  simp [Instr.wellFormed, Config.lenMax, h]

theorem test_wf_xor_index : (Instr.xorStateByte 144 0x00#8).wellFormed = false ∧
    (Instr.xorStateByte 143 0x00#8).wellFormed = true := by decide

theorem test_wf_block_length :
    (Instr.absorbBlock (List.replicate 73 0x00#8)).wellFormed = false ∧ (Instr.absorbBlock []).wellFormed = false ∧
      (Instr.absorbBlock (List.replicate 144 0x00#8)).wellFormed = true := by decide

/-! ## Decoding: every constructor from a word written out from the spec's encoding -/

/-- R72, R74 and the table of section 2.12. -/
theorem test_decode_create :
    decoded (.host [0x01#8, 0x00#8, 0x01#8, 0x00#8, 0x00#8]) = some (.create 256, []) ∧
      decoded (.host [0x01#8, 0x01#8, 0x02#8, 0x00#8, 0x00#8, 0x03#8]) = some (.create 513, [0x03#8]) := by decide

theorem test_decode_create_negative :
    decoded (.host [0x01#8, 0xFF#8, 0xFF#8, 0xFF#8, 0xFF#8]) = some (.create (-1), []) ∧
      decoded (.host [0x01#8, 0x00#8, 0x00#8, 0x00#8, 0x80#8]) = some (.create (-2147483648), []) := by decide

/-- R73; section 2.12, UPDATE "abc" and UPDATE "". -/
theorem test_decode_update :
    decoded (.host [0x02#8, 0x03#8, 0x00#8, 0x00#8, 0x00#8, 0x61#8, 0x62#8, 0x63#8, 0x03#8]) =
        some (.update [0x61#8, 0x62#8, 0x63#8], [0x03#8]) ∧
      decoded (.host [0x02#8, 0x00#8, 0x00#8, 0x00#8, 0x00#8]) = some (.update [], []) := by decide

theorem test_decode_finalize : decoded (.host [0x03#8, 0x05#8]) = some (.finalize, [0x05#8]) := by decide
theorem test_decode_reset : decoded (.host [0x04#8]) = some (.reset, []) := by decide
theorem test_decode_hexenc : decoded (.host [0x05#8]) = some (.hexenc, []) := by decide
theorem test_decode_theta : decoded (.micro ⟨0x10#8, []⟩) = some (.theta, []) := by decide
theorem test_decode_rho : decoded (.micro ⟨0x11#8, []⟩) = some (.rho, []) := by decide
theorem test_decode_pi : decoded (.micro ⟨0x12#8, []⟩) = some (.pi, []) := by decide
theorem test_decode_chi : decoded (.micro ⟨0x13#8, []⟩) = some (.chi, []) := by decide
theorem test_decode_iota : decoded (.micro ⟨0x14#8, [0x17#8]⟩) = some (.iota 23, []) := by decide
theorem test_decode_round : decoded (.micro ⟨0x15#8, [0x01#8]⟩) = some (.round 1, []) := by decide
theorem test_decode_keccakF : decoded (.micro ⟨0x16#8, []⟩) = some (.keccakF, []) := by decide
theorem test_decode_xorStateByte :
    decoded (.micro ⟨0x17#8, [0x8F#8, 0x80#8]⟩) = some (.xorStateByte 143 0x80#8, []) := by decide
theorem test_decode_absorbBlock :
    decoded (.micro ⟨0x18#8, List.replicate 72 0x61#8⟩) = some (.absorbBlock (List.replicate 72 0x61#8), []) := by decide
theorem test_decode_bufAppend : decoded (.micro ⟨0x19#8, [0x61#8]⟩) = some (.bufAppend 0x61#8, []) := by decide
theorem test_decode_pad : decoded (.micro ⟨0x1A#8, []⟩) = some (.pad, []) := by decide
theorem test_decode_squeeze : decoded (.micro ⟨0x1B#8, []⟩) = some (.squeeze, []) := by decide

/-- R85: HASH stands for the encodings of CREATE d, UPDATE bytes, FINALIZE. -/
theorem test_encode_hash :
    encode (.hash 256 [0x61#8, 0x62#8]) =
      .host [0x01#8, 0x00#8, 0x01#8, 0x00#8, 0x00#8, 0x02#8, 0x02#8, 0x00#8, 0x00#8, 0x00#8, 0x61#8, 0x62#8, 0x03#8] := by
  decide

/-- R79, R80: reserved first bytes, the select codes among them, and truncated commands. -/
theorem test_decode_refuses :
    decoded (.host [0x00#8]) = none ∧ decoded (.host [0x06#8]) = none ∧ decoded (.host [0x10#8]) = none ∧
      decoded (.host [0x1B#8]) = none ∧ decoded (.host [0xFF#8]) = none ∧ decoded (.host [0x01#8, 0xE0#8]) = none ∧
      decoded (.host [0x02#8, 0x02#8, 0x00#8, 0x00#8, 0x00#8, 0x61#8]) = none ∧
      decoded (.micro ⟨0x14#8, [0x18#8]⟩) = none ∧ decoded (.micro ⟨0x1C#8, []⟩) = none := by decide

/-! ## The permutation family (sections 2.1 to 2.7) -/

theorem test_theta_wraps :
    lanesAfter .theta (oneLane 2 3 0x8000000000000001#64) =
      some [0#64, 3#64, 0#64, 0x8000000000000001#64, 0#64, 0#64, 3#64, 0#64, 0x8000000000000001#64, 0#64,
        0#64, 3#64, 0#64, 0x8000000000000001#64, 0#64, 0#64, 3#64, 0x8000000000000001#64, 0x8000000000000001#64, 0#64,
        0#64, 3#64, 0#64, 0x8000000000000001#64, 0#64] := by decide

theorem test_rho_table :
    lanesAfter .rho (ofCoords fun _ _ => 1#64) =
      some [0x0000000000000001#64, 0x0000000000000002#64, 0x4000000000000000#64, 0x0000000010000000#64,
        0x0000000008000000#64, 0x0000001000000000#64, 0x0000100000000000#64, 0x0000000000000040#64,
        0x0080000000000000#64, 0x0000000000100000#64, 0x0000000000000008#64, 0x0000000000000400#64,
        0x0000080000000000#64, 0x0000000002000000#64, 0x0000008000000000#64, 0x0000020000000000#64,
        0x0000200000000000#64, 0x0000000000008000#64, 0x0000000000200000#64, 0x0000000000000100#64,
        0x0000000000040000#64, 0x0000000000000004#64, 0x2000000000000000#64, 0x0100000000000000#64,
        0x0000000000004000#64] := by decide

theorem test_rho_wraps :
    lanesAfter .rho (oneLane 2 0 0x8000000000000001#64) = some (oneLane 2 0 0x6000000000000000#64).toList := by decide

theorem test_pi_positions :
    lanesAfter .pi (ofCoords fun x y => BitVec.ofNat 64 (x.val + 5 * y.val)) =
      some (([0, 6, 12, 18, 24, 3, 9, 10, 16, 22, 1, 7, 13, 19, 20, 4, 5, 11, 17, 23, 2, 8, 14, 15, 21] : List Nat).map
        (BitVec.ofNat 64)) := by decide

theorem test_chi_row :
    (lanesAfter .chi (ofCoords fun x y => if y = 0 then
        #v[0xFF00FF00FF00FF00#64, 0xF0F0F0F0F0F0F0F0#64, 0xCCCCCCCCCCCCCCCC#64, 0xAAAAAAAAAAAAAAAA#64,
          0x0123456789ABCDEF#64][x] else 0#64)).map (List.take 5) =
      some [0xF30CF30CF30CF30C#64, 0xD2D2D2D2D2D2D2D2#64, 0xCDCD8989CDCD8989#64, 0x54AA10AADCAA98AA#64,
        0x01D34597895BCD1F#64] := by decide

theorem test_chi_reads_old_values :
    lanesAfter .chi (oneLane 0 2 0xFFFFFFFFFFFFFFFF#64) =
      some (ofCoords fun x y => if y = 2 ∧ (x = 0 ∨ x = 3) then 0xFFFFFFFFFFFFFFFF#64 else 0#64).toList := by decide

theorem test_iota_last :
    lanesAfter (.iota 23) (oneLane 0 0 0xFFFFFFFFFFFFFFFF#64) = some (oneLane 0 0 0x7FFFFFFF7FFF7FF7#64).toList := by
  decide

theorem test_iota_equal_constants :
    lanesAfter (.iota 5) (oneLane 0 0 0x80000001#64) = some zeroLanes.toList ∧
      lanesAfter (.iota 22) (oneLane 0 0 0x80000001#64) = some zeroLanes.toList := by decide

theorem test_round_one :
    lanesAfter (.round 1) (oneLane 0 0 1#64) =
      some [0x0000000000008083#64, 0x0000100000000000#64, 0x0000000000008000#64, 0x0000000000000001#64,
        0x0000100000008000#64, 0x0000000000000000#64, 0x0000200000200000#64, 0x0000000000000000#64,
        0x0000200000000000#64, 0x0000000000200000#64, 0x0000000000000002#64, 0x0000000000000200#64,
        0x0000000000000000#64, 0x0000000000000202#64, 0x0000000000000000#64, 0x0000000010000400#64,
        0x0000000000000000#64, 0x0000000000000400#64, 0x0000000010000000#64, 0x0000000000000000#64,
        0x0000010000000000#64, 0x0000000000000000#64, 0x0000010000000004#64, 0x0000000000000000#64,
        0x0000000000000004#64] := by decide +kernel

/-- Section 2.7, all 25 lanes; the 24 rounds are the kernel's to evaluate. -/
theorem test_keccakF_of_zero :
    lanesAfter .keccakF zeroLanes =
      some [0xF1258F7940E1DDE7#64, 0x84D5CCF933C0478A#64, 0xD598261EA65AA9EE#64, 0xBD1547306F80494D#64,
        0x8B284E056253D057#64, 0xFF97A42D7F8E6FD4#64, 0x90FEE5A0A44647C4#64, 0x8C5BDA0CD6192E76#64,
        0xAD30A6F71B19059C#64, 0x30935AB7D08FFC64#64, 0xEB5AA93F2317D635#64, 0xA9A6E6260D712103#64,
        0x81A57C16DBCF555F#64, 0x43B831CD0347C826#64, 0x01F22F1A11A5569F#64, 0x05E5635A21D9AE61#64,
        0x64BEFEF28CC970F2#64, 0x613670957BC46611#64, 0xB87C5A554FD00ECB#64, 0x8C3EE88A1CCF32C8#64,
        0x940C7922AE3A2614#64, 0x1841F924A2C509E4#64, 0x16F53526E70465C2#64, 0x75F644E97F30A13B#64,
        0xEAF1FF7B5CECA249#64] := by decide +kernel

/-! ## The sponge family (sections 2.8 to 2.11) -/

theorem test_xorStateByte_lane :
    (nextOf (exec (.xorStateByte 10 0xAB#8) (absorbing .d256 zeroLanes []))).map State.lanes =
        some (oneLane 1 0 0x0000000000AB0000#64) ∧
      (nextOf (exec (.xorStateByte 143 0x80#8) (absorbing .d224 zeroLanes []))).map State.lanes =
        some (oneLane 2 3 0x8000000000000000#64) := by decide

theorem test_xorStateByte_capacity :
    faultOf (exec (.xorStateByte 72 0x01#8) (absorbing .d512 zeroLanes [])) = some (.indexOutsideRate 72) := by decide

/-- R111's example: byte 135 of the padded empty message lies in lane (1,3). -/
theorem test_absorbBlock_xor :
    xorBlock zeroLanes ([0x06#8] ++ List.replicate 134 0x00#8 ++ [0x80#8]) =
      ofCoords fun x y => if x = 0 ∧ y = 0 then 0x0000000000000006#64
        else if x = 1 ∧ y = 3 then 0x8000000000000000#64 else 0#64 := by decide +kernel

theorem test_absorbBlock_length :
    faultOf (exec (.absorbBlock (List.replicate 136 0x00#8)) (absorbing .d512 zeroLanes [])) =
      some (.notOneBlock 136) := by decide +kernel

theorem test_bufAppend_room :
    (nextOf (exec (.bufAppend 0x62#8) (absorbing .d512 zeroLanes [0x61#8]))).map State.buf =
      some [0x61#8, 0x62#8] := by decide

/-- R112's example: at CNT = 71 the byte fills the buffer, which is absorbed and cleared at once. -/
theorem test_bufAppend_fills :
    (nextOf (exec (.bufAppend 0x61#8) (absorbing .d512 zeroLanes (List.replicate 71 0x61#8)))).map State.buf =
      some [] := by decide

theorem test_pad_two_bytes :
    (nextOf (exec .pad (absorbing .d512 zeroLanes (List.replicate 70 0x61#8)))).map State.blocks =
      some [List.replicate 70 0x61#8 ++ [0x06#8, 0x80#8]] := by decide

theorem test_pad_one_byte :
    (nextOf (exec .pad (absorbing .d384 zeroLanes (List.replicate 103 0x61#8)))).map State.blocks =
      some [List.replicate 103 0x61#8 ++ [0x86#8]] := by decide

/-- Section 2.11: for 224 the last lane read gives its low four bytes. -/
theorem test_squeeze_truncates :
    (nextOf (exec .squeeze (absorbing .d224
      (ofCoords fun x y => if y = 0 then #v[0xF1258F7940E1DDE7#64, 0x84D5CCF933C0478A#64, 0xD598261EA65AA9EE#64,
        0xBD1547306F80494D#64, 0x8B284E056253D057#64][x] else 0#64) []))).map State.dig =
      some [0xE7#8, 0xDD#8, 0xE1#8, 0x40#8, 0x79#8, 0x8F#8, 0x25#8, 0xF1#8, 0x8A#8, 0x47#8, 0xC0#8, 0x33#8, 0xF9#8,
        0xCC#8, 0xD5#8, 0x84#8, 0xEE#8, 0xA9#8, 0x5A#8, 0xA6#8, 0x1E#8, 0x26#8, 0x98#8, 0xD5#8, 0x4D#8, 0x49#8,
        0x80#8, 0x6F#8] := by decide

/-! ## The engine family (sections 2.10, 2.13, 2.14, 3) -/

theorem test_create_from_power_on :
    (nextOf (exec (.create 256) State.reset)).map (fun t => (t.lanes, t.buf, t.dsz, t.phase, t.responses)) =
      some (zeroLanes, [], .d256, .absorbing, [.ok]) := by decide

/-- The source's three illegal values; the state is unchanged (R121, R147). -/
theorem test_create_illegal :
    ([0, 513, -1] : List Int).map (fun d => nextOf (exec (.create d) State.reset)) =
      List.replicate 3 (some { State.reset with responses := [.error .invalidParameter] }) := by decide

/-- R122's example: at CNT = 70 the bytes 61 62 63 absorb one block and leave 63 in the buffer. -/
theorem test_update_across_block :
    (nextOf (exec (.update [0x61#8, 0x62#8, 0x63#8]) (absorbing .d512 zeroLanes (List.replicate 70 0x61#8)))).map
      (fun t => (t.buf, t.responses)) = some ([0x63#8], [.ok]) := by decide

theorem test_update_empty_when_finalized :
    responsesAfter (.update []) (finalized .d256 []) = some [.error .invalidState] := by decide

/-- Section 3, SHA3-256 of "abc": the 24 rounds are the kernel's to evaluate. -/
theorem test_finalize_abc :
    responsesAfter .finalize (absorbing .d256 zeroLanes [0x61#8, 0x62#8, 0x63#8]) =
      some [.digest [0x3A#8, 0x98#8, 0x5D#8, 0xA7#8, 0x4F#8, 0xE2#8, 0x25#8, 0xB2#8, 0x04#8, 0x5C#8, 0x17#8, 0x2D#8,
        0x6B#8, 0xD3#8, 0x90#8, 0xBD#8, 0x85#8, 0x5F#8, 0x08#8, 0x6E#8, 0x3E#8, 0x9D#8, 0x52#8, 0x5B#8, 0x46#8, 0xBF#8,
        0xE2#8, 0x45#8, 0x11#8, 0x43#8, 0x15#8, 0x32#8]] := by decide +kernel

theorem test_finalize_twice :
    nextOf (exec .finalize (finalized .d256 [0x3A#8])) =
      some { finalized .d256 [0x3A#8] with responses := [.error .invalidState] } := by decide

theorem test_reset_keeps_size :
    (nextOf (exec .reset (finalized .d512 []))).map (fun t => (t.lanes, t.buf, t.dsz, t.phase, t.responses)) =
      some (zeroLanes, [], .d512, .absorbing, [.ok]) := by decide

theorem test_reset_uncreated : responsesAfter .reset State.reset = some [.error .invalidState] := by decide

/-- Section 2.13: 00 FF 0A A0 gives "00FF0AA0". -/
theorem test_hexenc_text :
    responsesAfter .hexenc (finalized .d256 [0x00#8, 0xFF#8, 0x0A#8, 0xA0#8]) =
      some [.text [0x30#8, 0x30#8, 0x46#8, 0x46#8, 0x30#8, 0x41#8, 0x41#8, 0x30#8]] := by decide

theorem test_hexenc_absorbing :
    responsesAfter .hexenc (absorbing .d256 zeroLanes []) = some [.error .invalidState] := by decide

theorem test_hash_illegal : responsesAfter (.hash 28 [0x61#8]) (finalized .d256 []) = some [.error .invalidParameter] := by
  decide

theorem test_hash_leaves_finalized :
    (nextOf (exec (.hash 512 []) State.reset)).map (fun t => (t.phase, t.dsz, t.buf, t.responses.length)) =
      some (.finalized, .d512, [], 1) := by decide

/-! ## Steps and the listing form -/

/-- P1 of section 4: the first command of the stream is run and consumed. -/
theorem test_step_consumes :
    (nextOf (step { State.reset with stream := [0x01#8, 0x00#8, 0x01#8, 0x00#8, 0x00#8, 0x02#8, 0x00#8] })).map
      (fun t => (t.stream, t.phase, t.responses)) = some ([0x02#8, 0x00#8], .absorbing, [.ok]) := by decide

/-- R79: a select code in the stream is refused. -/
theorem test_step_refuses_reserved :
    refusalIn (step { State.reset with stream := [0x16#8] }) = some (.reservedCode 0x16#8) := by decide

/-- R84 (b): the three forms of an UPDATE operand, a comment, and CREATE's decimal. -/
theorem test_listing_lines :
    readLine "CREATE -1        ; 01 FF FF FF FF".toList = some (.create (-1)) ∧
      readLine "UPDATE \"abc\"".toList = some (.update [0x61#8, 0x62#8, 0x63#8]) ∧
      readLine "UPDATE 61 62 63".toList = some (.update [0x61#8, 0x62#8, 0x63#8]) ∧
      readLine "UPDATE 3*A3".toList = some (.update [0xA3#8, 0xA3#8, 0xA3#8]) ∧
      readLine "UPDATE \"\"".toList = some (.update []) ∧ readLine "THETA".toList = none := by decide +kernel

/-! ## Witnesses: states and operands that meet the hypotheses of the statements of Certificates/Slice0/Obligations.lean,
at the boundaries of their clauses. Each theorem is named after its statement. -/

/-- A state with a stream presented. -/
def presenting (stream : List Byte) : State :=
  { State.reset with stream := stream }

/-- A state with a micro-operation presented. -/
def selecting (code : Byte) (operands : List Byte) : State :=
  { State.reset with select := some ⟨code, operands⟩ }

theorem test_witness_ParameterSetsAreTheTable :
    (∀ d ∈ ([0, 513, -1, 28, 223, 1600] : List Int), d ∉ ([224, 256, 384, 512] : List Int)) ∧
      (512 : Int) = (DigestSize.d512.bits : Int) := by decide

theorem test_witness_LaneOperatorsByBit : (0 < 64 ∧ 63 < 64) ∧ (0 < 8 ∧ 7 < 8) ∧ (1 ≤ 1 ∧ 63 < 64) := by decide

theorem test_witness_ByteViewOfLanes :
    (0 : Fin 200).val / 8 = (0 : Fin 5).val + 5 * (0 : Fin 5).val ∧
      (199 : Fin 200).val / 8 = (4 : Fin 5).val + 5 * (4 : Fin 5).val ∧ (199 : Fin 200).val / 8 = (24 : Fin 25).val ∧
      (191 : Fin 200).val / 8 ≠ (24 : Fin 25).val := by decide

theorem test_witness_IotaResult : ¬((0 : Fin 5) = 0 ∧ (1 : Fin 5) = 0) ∧ ¬((1 : Fin 5) = 0 ∧ (0 : Fin 5) = 0) := by decide

theorem test_witness_KeccakFIsAPermutation :
    ∃ u, exec .keccakF State.reset = .next u ∧ exec .keccakF State.reset = .next u := ⟨_, rfl, rfl⟩

theorem test_witness_XorStateByteResult :
    (0 : Fin 200).val < (absorbing .d512 zeroLanes []).rateBytes ∧
      (71 : Fin 200).val < (absorbing .d512 zeroLanes []).rateBytes ∧
      (143 : Fin 200).val < (absorbing .d224 zeroLanes []).rateBytes ∧
      ((2 : Fin 5).val = (143 : Fin 200).val / 8 % 5 ∧ (3 : Fin 5).val = (143 : Fin 200).val / 8 / 5) := by decide

theorem test_witness_RepeatingRestoresOrKeeps :
    ∃ t u, exec (.xorStateByte 71 0xAB#8) (absorbing .d512 zeroLanes []) = .next t ∧
      exec (.xorStateByte 71 0xAB#8) t = .next u := ⟨_, _, rfl, rfl⟩

theorem test_witness_AbsorbBlockResult :
    (List.replicate 72 0x61#8).length = (absorbing .d512 zeroLanes []).rateBytes ∧
      (List.replicate 144 0x61#8).length = (absorbing .d224 zeroLanes []).rateBytes ∧
      (List.replicate 72 0x61#8)[(71 : Fin 200).val]? = some 0x61#8 ∧
      (absorbing .d512 zeroLanes []).rateBytes ≤ (72 : Fin 200).val := by decide +kernel

theorem test_witness_AbsorbLaneWise :
    (List.replicate 72 0x61#8).length = DigestSize.d512.rateBytes ∧
      DigestSize.d512.rateBytes / 8 ≤ (4 : Fin 5).val + 5 * (1 : Fin 5).val ∧
      (3 : Fin 5).val + 5 * (1 : Fin 5).val < DigestSize.d512.rateBytes / 8 := by decide +kernel

theorem test_witness_BufAppendResult :
    (absorbing .d512 zeroLanes (List.replicate 70 0x61#8)).cnt + 1 < (absorbing .d512 zeroLanes []).rateBytes ∧
      (absorbing .d512 zeroLanes (List.replicate 71 0x61#8)).cnt + 1 = (absorbing .d512 zeroLanes []).rateBytes := by
  decide +kernel

theorem test_witness_PadResult :
    (absorbing .d512 zeroLanes (List.replicate 70 0x61#8)).cnt + 2 ≤ (absorbing .d512 zeroLanes []).rateBytes ∧
      (absorbing .d512 zeroLanes []).cnt + 2 ≤ (absorbing .d512 zeroLanes []).rateBytes ∧
      (absorbing .d512 zeroLanes (List.replicate 71 0x61#8)).cnt + 1 = (absorbing .d512 zeroLanes []).rateBytes := by
  decide +kernel

theorem test_witness_SqueezeResult :
    (27 : Fin 200).val < (absorbing .d224 zeroLanes []).dsz.bits / 8 ∧
      (63 : Fin 200).val < (absorbing .d512 zeroLanes []).dsz.bits / 8 := by decide

theorem test_witness_MicroOperationsStopOutsideTheirRules :
    (absorbing .d512 zeroLanes []).rateBytes ≤ (72 : Fin 200).val ∧
      (List.replicate 71 0x61#8).length ≠ (absorbing .d512 zeroLanes []).rateBytes ∧
      (absorbing .d512 zeroLanes (List.replicate 72 0x61#8)).rateBytes ≤
        (absorbing .d512 zeroLanes (List.replicate 72 0x61#8)).cnt := by decide +kernel

theorem test_witness_CreateResult :
    (224 : Int) = (DigestSize.d224.bits : Int) ∧ ∀ p : DigestSize, (225 : Int) ≠ (p.bits : Int) :=
  ⟨by decide, fun p => by cases p <;> decide⟩

/-- UpdateResult, UpdateClosedForm and FinalizeResult: Absorbing at both ends of CNT, and the two other phases. -/
theorem test_witness_UpdateAndFinalize :
    (absorbing .d512 zeroLanes []).phase = .absorbing ∧
      (absorbing .d512 zeroLanes []).cnt < (absorbing .d512 zeroLanes []).rateBytes ∧
      (absorbing .d512 zeroLanes (List.replicate 71 0x61#8)).cnt < (absorbing .d512 zeroLanes []).rateBytes ∧
      (absorbing .d512 zeroLanes []).ir = none ∧
      State.reset.phase ≠ .absorbing ∧ (finalized .d256 []).phase ≠ .absorbing ∧
      (47 : Fin 200).val < (absorbing .d384 zeroLanes []).dsz.bits / 8 := by decide +kernel

theorem test_witness_ResetResult :
    (finalized .d256 []).phase ≠ .uncreated ∧ (absorbing .d224 zeroLanes []).phase ≠ .uncreated ∧
      State.reset.phase = .uncreated := by decide

theorem test_witness_HexencResult :
    (finalized .d256 (List.replicate 32 0xFF#8)).phase = .finalized ∧
      (finalized .d256 (List.replicate 32 0xFF#8)).dig.length = (finalized .d256 []).digestBytes ∧
      (finalized .d256 (List.replicate 32 0xFF#8)).dig[31]? = some 0xFF#8 ∧
      (absorbing .d256 zeroLanes []).phase ≠ .finalized ∧ State.reset.phase ≠ .finalized := by decide

theorem test_witness_HashComputesSha3 :
    (384 : Int) = (DigestSize.d384.bits : Int) ∧ ∀ p : DigestSize, (-384 : Int) ≠ (p.bits : Int) :=
  ⟨by decide, fun p => by cases p <;> decide⟩

theorem test_witness_LifecycleTable :
    parameterSet 224 = some .d224 ∧ parameterSet 0 = none ∧ State.reset.phase = .uncreated ∧
      (absorbing .d224 zeroLanes []).phase = .absorbing ∧ (finalized .d224 []).phase = .finalized ∧
      Instr.hexenc ∈ [Instr.finalize, .reset, .hexenc] := by decide

theorem test_witness_OneResponsePerCommand :
    isHostCommand .hexenc = true ∧ isHostCommand (.hash 0 []) = true ∧ isHostCommand .theta = false ∧
      ∃ t, exec .theta State.reset = .next t := ⟨rfl, rfl, rfl, _, rfl⟩

theorem test_witness_ErrorsArePrecise :
    ∃ t, exec .hexenc State.reset = .next t ∧ t.responses = State.reset.responses ++ [.error .invalidState] :=
  ⟨_, rfl, rfl⟩

theorem test_witness_ErrorsOnlyWhereListed :
    (∃ t, exec (.create 0) State.reset = .next t ∧ t.responses = State.reset.responses ++ [.error .invalidParameter]) ∧
      (∃ t, exec .reset State.reset = .next t ∧ t.responses = State.reset.responses ++ [.error .invalidState]) ∧
      (∃ t, exec .finalize (finalized .d224 []) = .next t ∧ t.responses = [.error .invalidState]) :=
  ⟨⟨_, rfl, rfl⟩, ⟨_, rfl, rfl⟩, ⟨_, rfl, rfl⟩⟩

theorem test_witness_ChunkingInvariance :
    (absorbing .d224 zeroLanes []).phase = .absorbing ∧
      ([[0x61#8], [], [0x62#8, 0x63#8]] : List (List Byte)).flatten = ([[0x61#8, 0x62#8, 0x63#8]] : List (List Byte)).flatten := by
  decide

theorem test_witness_DigestLengthContract :
    (absorbing .d224 zeroLanes []).phase = .absorbing ∧ (absorbing .d512 zeroLanes [0x61#8]).phase = .absorbing := by decide

theorem test_witness_WriteMatrix :
    (∃ t, exec .hexenc State.reset = .next t) ∧ Column.lanes ∉ writeMatrix .hexenc ∧ Column.buf ∉ writeMatrix .squeeze ∧
      Column.dsz ∉ writeMatrix .reset ∧ Column.phase ∉ writeMatrix (.update []) ∧ Column.dig ∉ writeMatrix .pad :=
  ⟨⟨_, rfl⟩, by decide, by decide, by decide, by decide, by decide⟩

theorem test_witness_DigestImmutableWhileFinalized :
    isHostCommand .finalize = true ∧ (finalized .d224 [0x01#8]).phase = .finalized ∧
      ∃ t, exec .finalize (finalized .d224 [0x01#8]) = .next t := ⟨rfl, rfl, _, rfl⟩

/-- Between CREATE 224 and RESET: a failed CREATE, another size, and the same size again. -/
theorem test_witness_ResetReturnsToCreated :
    State.reset.ir = none ∧ (224 : Int) = (DigestSize.d224.bits : Int) ∧
      ∃ t u, exec (.create 224) State.reset = .next t ∧
        execAll [.theta, .create 0, .create 512, .hexenc, .create 224, .squeeze] t = .next u ∧ u.dsz = .d224 :=
  ⟨rfl, by decide, _, _, rfl, rfl, rfl⟩

/-- Two different states of an uncreated instance, with a command that steps and one that is refused. -/
theorem test_witness_PowerOnContentsUnobservable :
    Indistinguishable (presenting [0x05#8]) { presenting [0x05#8] with lanes := zeroLanes, buf := [] } ∧
      presenting [0x05#8] ≠ { presenting [0x05#8] with lanes := zeroLanes, buf := [] } ∧
      (presenting [0x05#8]).select = none ∧ (∃ t, step (presenting [0x05#8]) = .next t) ∧
      step (presenting [0x00#8]) = .refused (.reservedCode 0x00#8) :=
  ⟨⟨⟨rfl, rfl, rfl, rfl⟩, rfl, rfl, fun h => absurd rfl h⟩, by decide, rfl, ⟨_, rfl⟩, rfl⟩

theorem test_witness_OnlyTheDigestIsOutput :
    isHostCommand .hexenc = true ∧ Instr.hexenc ≠ .finalize ∧ (∀ d m, Instr.hexenc ≠ .hash d m) ∧
      (absorbing .d224 zeroLanes []).phase = (absorbing .d224 zeroLanes [0x61#8]).phase ∧
      (absorbing .d224 zeroLanes []).dig = (absorbing .d224 zeroLanes [0x61#8]).dig :=
  ⟨rfl, by decide, fun _ _ => by simp, rfl, rfl⟩

theorem test_witness_InstancesDoNotInterfere :
    (0 : Fin 2) ≠ 1 ∧ (∃ a, stepInstance 0 (powerOnAll 2) = .next a) ∧ ∃ b, stepInstance 1 (powerOnAll 2) = .next b :=
  ⟨by decide, ⟨_, rfl⟩, ⟨_, rfl⟩⟩

theorem test_witness_StorageBoundsKept :
    StorageBounds (absorbing .d512 zeroLanes (List.replicate 71 0x61#8)) ∧
      ∃ t, exec (.bufAppend 0x61#8) (absorbing .d512 zeroLanes (List.replicate 71 0x61#8)) = .next t :=
  ⟨⟨by decide +kernel, by decide +kernel, rfl⟩, _, rfl⟩

/-- An uncreated instance whose buffer is over every bound, and a finalized one. -/
theorem test_witness_IdleInvariantKept :
    (IdleInv { presenting [0x01#8, 0xE0#8, 0x00#8, 0x00#8, 0x00#8] with buf := List.replicate 200 0xFF#8 } ∧
        ∃ t, step { presenting [0x01#8, 0xE0#8, 0x00#8, 0x00#8, 0x00#8] with buf := List.replicate 200 0xFF#8 } = .next t) ∧
      IdleInv { finalized .d224 (squeezeBytes .d224 zeroLanes) with lanes := zeroLanes, stream := [0x05#8] } ∧
      ∃ t, step { finalized .d224 (squeezeBytes .d224 zeroLanes) with lanes := zeroLanes, stream := [0x05#8] } = .next t :=
  ⟨⟨⟨(fun h => absurd rfl h), rfl, rfl, (fun h => nomatch h), (fun h => nomatch h)⟩, _, rfl⟩,
    ⟨fun _ => ⟨by decide, by decide, rfl⟩, rfl, rfl, fun _ => rfl, fun _ => rfl⟩, _, rfl⟩

/-- The empty message, which clauses 3 and 4 start from; clauses 1 and 2 start from any state. -/
theorem test_witness_SpongeInvariant :
    HasAbsorbed .d512 [] (absorbing .d512 zeroLanes []) ∧
      (∃ t, exec (.update [0x61#8]) (absorbing .d512 zeroLanes []) = .next t) ∧
      (∃ t, exec .finalize (absorbing .d512 zeroLanes []) = .next t) ∧
      (∃ t, exec (.create 512) State.reset = .next t) ∧ (absorbing .d512 zeroLanes []).phase ≠ .uncreated ∧
      (∃ t, exec .reset (absorbing .d512 zeroLanes []) = .next t) :=
  ⟨⟨rfl, rfl, rfl, rfl⟩, ⟨_, rfl⟩, ⟨_, rfl⟩, ⟨_, rfl⟩, by decide, ⟨_, rfl⟩⟩

/-- P2's first commands, in two chunks, and no chunk at all. -/
theorem test_witness_EngineComputesSha3 :
    Presents (presenting [0x01#8, 0x00#8, 0x02#8, 0x00#8, 0x00#8, 0x02#8, 0x01#8, 0x00#8, 0x00#8, 0x00#8, 0x61#8,
        0x02#8, 0x00#8, 0x00#8, 0x00#8, 0x00#8, 0x03#8])
        (.create 512 :: (([[0x61#8], []] : List (List Byte)).map Instr.update ++ [.finalize])) ∧
      Presents (presenting [0x01#8, 0x00#8, 0x02#8, 0x00#8, 0x00#8, 0x03#8])
        (.create 512 :: (([] : List (List Byte)).map Instr.update ++ [.finalize])) ∧
      (∀ c ∈ ([[0x61#8], []] : List (List Byte)), c.length ≤ Config.lenMax) :=
  ⟨⟨rfl, by decide⟩, ⟨rfl, by decide⟩, by decide⟩

theorem test_witness_DecodeOfEncode :
    (Instr.create (-2147483648)).wellFormed = true ∧ (Instr.create 2147483647).wellFormed = true ∧
      (Instr.update []).wellFormed = true ∧ (Instr.xorStateByte 143 0xFF#8).wellFormed = true ∧
      (Instr.absorbBlock (List.replicate 104 0xFF#8)).wellFormed = true ∧ (Instr.iota 23).wellFormed = true ∧
      ∀ d m, Instr.iota 23 ≠ .hash d m :=
  ⟨by decide, by decide, by decide, by decide, by decide, by decide, fun _ _ => by simp⟩

theorem test_witness_HashEncodingIsItsExpansion :
    (Instr.hash (-1) [0x61#8]).wellFormed = true ∧ ([0x61#8] : List Byte).length ≤ 2 ^ 32 - 1 := by decide

theorem test_witness_EncodeOfDecode :
    decode (.host [0x03#8, 0x04#8]) = .ok (.finalize, [0x04#8]) ∧
      decode (.micro ⟨0x17#8, [0x8F#8, 0x01#8]⟩) = .ok (.xorStateByte 143 0x01#8, []) := ⟨rfl, rfl⟩

theorem test_witness_ReservedCodesAreRefused :
    (presenting [0x10#8]).select = none ∧ (presenting [0x10#8]).stream = [0x10#8] ∧
      ∀ c ∈ ([0x00#8, 0x06#8, 0x10#8, 0x1B#8, 0xFF#8] : List Byte), c ∉ ([0x01#8, 0x02#8, 0x03#8, 0x04#8, 0x05#8] : List Byte) := by
  decide

theorem test_witness_TruncatedCommandsAreRefused :
    (presenting [0x01#8, 0xE0#8, 0x00#8, 0x00#8]).stream = 0x01#8 :: [0xE0#8, 0x00#8, 0x00#8] ∧
      ([0xE0#8, 0x00#8, 0x00#8] : List Byte).length < 4 ∧
      (presenting [0x02#8, 0x02#8, 0x00#8, 0x00#8, 0x00#8, 0x61#8]).stream =
        0x02#8 :: 0x02#8 :: 0x00#8 :: 0x00#8 :: 0x00#8 :: [0x61#8] ∧
      ([0x61#8] : List Byte).length < (0x02#8).toNat + 2 ^ 8 * (0x00#8).toNat + 2 ^ 16 * (0x00#8).toNat + 2 ^ 24 * (0x00#8).toNat := by
  decide

theorem test_witness_BadSelectWordsAreRefused :
    ((selecting 0x1C#8 []).select = some ⟨0x1C#8, []⟩ ∧ 0x1B < (0x1C#8).toNat) ∧ (0x0F#8).toNat < 0x10 ∧
      (0x1A#8 ∈ [0x10#8, 0x11#8, 0x12#8, 0x13#8, 0x16#8, 0x1A#8, 0x1B#8] ∧ [0x00#8] ≠ ([] : List Byte)) ∧
      (0x19#8 ∈ [0x14#8, 0x15#8, 0x19#8] ∧ ([] : List Byte).length ≠ 1 ∧ [0x00#8, 0x00#8].length ≠ 1) ∧
      ((selecting 0x15#8 [0x18#8]).select = some ⟨0x15#8, [0x18#8]⟩ ∧ 24 ≤ (0x18#8).toNat) ∧
      ((selecting 0x17#8 [0x00#8]).select = some ⟨0x17#8, [0x00#8]⟩ ∧ [0x00#8].length ≠ 2) ∧
      ((selecting 0x17#8 [0x90#8, 0x01#8]).select = some ⟨0x17#8, [0x90#8, 0x01#8]⟩ ∧ 144 ≤ (0x90#8).toNat) ∧
      ([0x00#8].length ∉ [72, 104, 136, 144] ∧ (List.replicate 73 0x00#8).length ∉ [72, 104, 136, 144]) := by
  decide +kernel

theorem test_witness_StepRunsTheDecodedInstruction :
    ((presenting [0x05#8, 0x04#8]).select = none ∧
        decode (.host (presenting [0x05#8, 0x04#8]).stream) = .ok (.hexenc, [0x04#8])) ∧
      ((selecting 0x1B#8 []).select = some ⟨0x1B#8, []⟩ ∧ decode (.micro ⟨0x1B#8, []⟩) = .ok (.squeeze, [])) ∧
      State.reset.select = none ∧ State.reset.stream = [] := ⟨⟨rfl, rfl⟩, ⟨rfl, rfl⟩, rfl, rfl⟩

theorem test_witness_WellFormedStreamsNeverStop :
    Presents (presenting [0x05#8, 0x04#8]) [.hexenc, .reset] ∧
      ∀ i ∈ [Instr.hexenc, .reset], i.wellFormed = true ∧ isHostCommand i = true ∧ ∀ d m, i ≠ .hash d m :=
  ⟨⟨rfl, by decide⟩, by simp [Instr.wellFormed, isHostCommand]⟩

theorem test_witness_ResponseBytes :
    (absorbing .d224 zeroLanes []).phase = .absorbing ∧ (finalized .d224 (List.replicate 28 0#8)).phase = .finalized ∧
      (finalized .d224 (List.replicate 28 0#8)).dig.length = (finalized .d224 []).digestBytes := by decide

theorem test_witness_ListingReadsBack :
    writeLine (.create (-1)) = some "CREATE -1".toList ∧ writeLine (.update []) = some "UPDATE \"\"".toList ∧
      writeLine (.update [0x0A#8, 0xFF#8]) = some "UPDATE 0A FF".toList := by decide +kernel

end Sys2Proof.Tests
end

/-! # Proofs: scope and parameters (spec/00_scope.md)

The responses of a host command, the parameter sets and the lane operators. -/

namespace Sys2Proof.Machine

/-! ### The parameter sets (R6, R7) -/

/-- CREATE's match seen from the table: R6 lists every size that selects a set. -/
theorem parameterSet_of_notMem (d : Int) (h : d ∉ ([224, 256, 384, 512] : List Int)) : parameterSet d = none := by
  refine (parameterSet_eq_none d).mpr fun p hp => h ?_
  cases p <;> simp [hp, DigestSize.bits]

/-! ### ROL (R10) -/

/-- ROL by bit: bit `j` moves to bit `(j + n) mod 64`. -/
theorem getLsbD_rol_moved (a : Lane) (n j : Nat) (hn : n < 64) (hj : j < 64) :
    (rol a n).getLsbD ((j + n) % 64) = a.getLsbD j := by
  rw [getLsbD_rol a n _ hn (Nat.mod_lt _ (by decide))]
  congr 1
  omega

theorem rol_by_zero (a : Lane) : rol a 0 = a := by
  refine lane_ext_bits fun j hj => ?_
  simpa [Nat.mod_eq_of_lt hj] using getLsbD_rol_moved a 0 j (by decide) hj

/-- The bits shifted out at the top fit below the ones shifted up, so OR is addition. -/
theorem toNat_rol (a : Lane) (n : Nat) (hn : n < 64) :
    (rol a n).toNat = a.toNat * 2 ^ n % 2 ^ 64 + a.toNat / 2 ^ (64 - n) := by
  have hsplit : 2 ^ 64 = 2 ^ (64 - n) * 2 ^ n := by rw [← Nat.pow_add, Nat.sub_add_cancel hn.le]
  have hlow : a.toNat / 2 ^ (64 - n) < 2 ^ n :=
    Nat.div_lt_of_lt_mul (hsplit ▸ a.isLt)
  have hhigh : a.toNat * 2 ^ n % 2 ^ 64 = (a.toNat % 2 ^ (64 - n)) <<< n := by
    rw [hsplit, Nat.mul_mod_mul_right, Nat.shiftLeft_eq]
  rw [rol, BitVec.toNat_or, BitVec.toNat_shiftLeft, BitVec.toNat_ushiftRight, Nat.shiftLeft_eq, Nat.shiftRight_eq_div_pow,
    hhigh, Nat.shiftLeft_add_eq_or_of_lt hlow]

/-! ### The obligations of 00_scope.md -/

/-- Settles O32: a host command answers one response by the case lemma of the host commands, and a micro-operation's
effect keeps the responses. -/
theorem oneResponsePerCommand : Obligations.OneResponsePerCommand := by
  refine ⟨fun i s hi => ?_, fun i s t hi ht => ?_⟩
  · obtain ⟨t, r, hexec, hresp, -, -, hdigest, htext⟩ := hostCommand_cases i s hi
    exact ⟨t.respond r, r, hexec, by rw [respond_responses, hresp], hdigest, htext⟩
  · rw [exec_next i s t ht]
    exact microOperation_responses i s hi

/-- Settles O2: the table set by set, and CREATE's match on `d` by the two characterisations of `parameterSet`. -/
theorem parameterSetsAreTheTable : Obligations.ParameterSetsAreTheTable := by
  refine ⟨?table, ?rates, parameterSet_eq_some, fun d hd => ?illegal⟩
  case table => intro p; cases p <;> decide
  case rates => intro p; cases p <;> decide
  case illegal =>
    have hnone := parameterSet_of_notMem d hd
    exact ⟨hnone, fun s => execCreate_illegal d s hnone⟩

/-- Settles O4: `^`, `&`, `~`, `|` are the word type's own operators; ROL by bit and as arithmetic are the lemmas above. -/
theorem laneOperatorsByBit : Obligations.LaneOperatorsByBit := by
  refine ⟨?lanes, ?complement, ?bytes, ?moved, rol_by_zero, fun a n _ hn => toNat_rol a n hn⟩
  case lanes => exact fun a b j _ => ⟨BitVec.getLsbD_xor, BitVec.getLsbD_and⟩
  case complement => exact fun a => BitVec.toNat_not
  case bytes => exact fun u v j _ => ⟨BitVec.getLsbD_xor, BitVec.getLsbD_and, BitVec.getLsbD_or⟩
  case moved => exact fun a n hn j hj => getLsbD_rol_moved a n j hn hj

end Sys2Proof.Machine

/-! # Proofs: the state (spec/10_state.md)

The byte view of the lanes, what each operation writes, and the invariants of the engine. What a host command or a
micro-operation can do is said once (`HostUpdate`, `MicroUpdate`); each invariant is one rule per shared operation and a
case split over these. -/

namespace Sys2Proof.Machine

/-! ### What a host command can do -/

/-- `HostUpdate i s t`: the host command `i` takes the engine from `s` to `t`, its response apart. -/
inductive HostUpdate : Instr → State → State → Prop
  /-- HEXENC, and every command that answers an error. -/
  | unchanged {i : Instr} {s : State} : HostUpdate i s s
  | create {s : State} (d : Int) (p : DigestSize) (legal : parameterSet d = some p) :
      HostUpdate (.create d) s (s.initialise p)
  | update {s : State} (data : List Byte) (absorbing : s.phase = .absorbing) :
      HostUpdate (.update data) s (s.absorbBytes data)
  | finalize {s : State} (absorbing : s.phase = .absorbing) : HostUpdate .finalize s s.finish
  | reset {s : State} (created : s.phase ≠ .uncreated) : HostUpdate .reset s (s.initialise s.dsz)
  | hash {s : State} (d : Int) (p : DigestSize) (m : List Byte) (legal : parameterSet d = some p) :
      HostUpdate (.hash d m) s (hashed s p m)

/-- The inversion lemma of the host commands: an update, whose guards it records, and one response. -/
theorem hostCommand_update (i : Instr) (s : State) (h : isHostCommand i = true) :
    ∃ t r, effect i s = t.respond r ∧ HostUpdate i s t := by
  cases i with
  | create d =>
    cases hp : parameterSet d with
    | none => exact ⟨s, .error .invalidParameter, by simp [effect, hp, State.raise], .unchanged⟩
    | some p => exact ⟨_, .ok, by simp [effect, hp], .create d p hp⟩
  | update data =>
    by_cases hp : s.phase = .absorbing
    · exact ⟨_, .ok, by simp [effect, State.inPhase, hp], .update data hp⟩
    · exact ⟨s, .error .invalidState, by simp [effect, State.inPhase, isAbsorbing_of_ne s hp, State.raise],
        .unchanged⟩
  | finalize =>
    by_cases hp : s.phase = .absorbing
    · exact ⟨_, .digest s.finish.dig, by simp [effect, State.inPhase, hp], .finalize hp⟩
    · exact ⟨s, .error .invalidState, by simp [effect, State.inPhase, isAbsorbing_of_ne s hp, State.raise],
        .unchanged⟩
  | reset =>
    by_cases hp : s.phase = .uncreated
    · exact ⟨s, .error .invalidState, by simp [effect, State.inPhase, isCreated_of_eq s hp, State.raise],
        .unchanged⟩
    · exact ⟨_, .ok, by simp [effect, State.inPhase, hp], .reset hp⟩
  | hexenc =>
    by_cases hp : s.phase = .finalized
    · exact ⟨s, .text (hexText s.dig), by simp [effect, State.inPhase, hp], .unchanged⟩
    · exact ⟨s, .error .invalidState, by simp [effect, State.inPhase, isFinalized_of_ne s hp, State.raise],
        .unchanged⟩
  | hash d m =>
    cases hp : parameterSet d with
    | none => exact ⟨s, .error .invalidParameter, by simp [effect, hp, State.raise], .unchanged⟩
    | some p => exact ⟨_, .digest (hashed s p m).dig, by simp [effect, hp], .hash d p m hp⟩
  | _ => cases h

/-- A host command stops in no state. -/
theorem exec_hostCommand (i : Instr) (s : State) (h : isHostCommand i = true) : exec i s = .next (effect i s) := by
  obtain ⟨t, r, hexec, -, heffect, -⟩ := hostCommand_cases i s h
  rw [hexec, heffect]

/-! ### What a micro-operation can do -/

/-- `MicroUpdate i s t`: the micro-operation `i` takes the engine from `s` to `t`. -/
inductive MicroUpdate : Instr → State → State → Prop
  /-- The permutation family, XOR_STATE_BYTE and ABSORB_BLOCK write the lanes; KECCAK_F leaves no round index. -/
  | lanes {i : Instr} {s : State} (A : Lanes) (ir : Option (Fin 24)) (marks : writeMatrix i = [.lanes])
      (index : ir = s.ir ∨ ir = none) : MicroUpdate i s { s with lanes := A, ir := ir }
  | bufAppend {s : State} (v : Byte) : MicroUpdate (.bufAppend v) s (s.append v)
  | pad {s : State} (p : List Byte) : MicroUpdate .pad s (s.returnBlock p)
  | squeeze {s : State} : MicroUpdate .squeeze s s.squeeze

/-- The inversion lemma of the micro-operations. -/
theorem microOperation_update (i : Instr) (s : State) (h : isHostCommand i = false) :
    MicroUpdate i s (effect i s) := by
  cases i with
  | theta => exact .lanes (theta s.lanes) s.ir rfl (.inl rfl)
  | rho => exact .lanes (rho s.lanes) s.ir rfl (.inl rfl)
  | pi => exact .lanes (pi s.lanes) s.ir rfl (.inl rfl)
  | chi => exact .lanes (chi s.lanes) s.ir rfl (.inl rfl)
  | iota ir => exact .lanes (iota s.lanes ir) s.ir rfl (.inl rfl)
  | round ir => exact .lanes (round s.lanes ir) s.ir rfl (.inl rfl)
  | keccakF =>
    rw [show effect .keccakF s = s.permute from rfl, permute_eq]
    exact .lanes _ none rfl (.inr rfl)
  | xorStateByte j v => exact .lanes (xorStateByte s.lanes j.val v) s.ir rfl (.inl rfl)
  | absorbBlock p =>
    rw [show effect (.absorbBlock p) s = s.absorb p from rfl, absorb_eq]
    exact .lanes _ none rfl (.inr rfl)
  | bufAppend v => exact .bufAppend v
  | pad => exact .pad _
  | squeeze => exact .squeeze
  | _ => cases h

/-! ### The next command of the stream -/

theorem step_of_nil (s : State) (hsel : s.select = none) (hst : s.stream = []) : step s = .next s := by
  simp [step, State.fetch, hsel, hst]

theorem step_of_error (s : State) (e : DecodeError) (hsel : s.select = none) (hst : s.stream ≠ [])
    (hd : decodeCommand s.stream = .error e) : step s = .refused (refusalOf e) := by
  cases hs : s.stream with
  | nil => exact absurd hs hst
  | cons b bs =>
    rw [hs] at hd
    simp [step, State.fetch, hsel, hs, decode, hd]

theorem step_of_ok (s : State) (i : Instr) (rest : List Byte) (hsel : s.select = none)
    (hd : decodeCommand s.stream = .ok (i, rest)) : step s = exec i { s with stream := rest } := by
  cases hs : s.stream with
  | nil => rw [hs] at hd; cases hd
  | cons b bs =>
    rw [hs] at hd
    simp [step, State.fetch, hsel, hs, decode, hd]

/-! ### What power-on leaves unspecified (R37, R160) -/

/-- After CREATE, two indistinguishable states are one. -/
theorem Indistinguishable.eq_of_created {s t : State} (h : Indistinguishable s t) (hp : s.phase ≠ .uncreated) :
    s = t := by
  obtain ⟨⟨hstream, hresponses, hselect, hblocks⟩, -, -, hcreated⟩ := h
  obtain ⟨hlanes, hbuf, hdsz, hphase, hdig, hir⟩ := hcreated hp
  cases s
  cases t
  simp only at hstream hresponses hselect hblocks hlanes hbuf hdsz hphase hdig hir
  subst_vars
  rfl

theorem Indistinguishable.refl (s : State) : Indistinguishable s s where
  interfaces := ⟨rfl, rfl, rfl, rfl⟩
  phase := rfl
  ir := rfl
  created _ := ⟨rfl, rfl, rfl, rfl, rfl, rfl⟩

theorem Indistinguishable.withStream {s t : State} (h : Indistinguishable s t) (bytes : List Byte) :
    Indistinguishable { s with stream := bytes } { t with stream := bytes } where
  interfaces := ⟨rfl, h.interfaces.responses, h.interfaces.select, h.interfaces.blocks⟩
  phase := h.phase
  ir := h.ir
  created hp :=
    have same := h.created hp
    ⟨same.lanes, same.buf, same.dsz, same.phase, same.dig, same.ir⟩

theorem Indistinguishable.raise {s t : State} (h : Indistinguishable s t) (e : Error) :
    Indistinguishable (s.raise e) (t.raise e) where
  interfaces := ⟨h.interfaces.stream, by simp [h.interfaces.responses], h.interfaces.select, h.interfaces.blocks⟩
  phase := h.phase
  ir := h.ir
  created hp :=
    have same := h.created hp
    ⟨same.lanes, same.buf, same.dsz, same.phase, same.dig, same.ir⟩

/-- CREATE writes every register that power-on leaves unspecified. -/
theorem Indistinguishable.initialise_eq {s t : State} (h : Indistinguishable s t) (p : DigestSize) :
    s.initialise p = t.initialise p := by
  obtain ⟨⟨hstream, hresponses, hselect, hblocks⟩, -, hir, -⟩ := h
  simp [State.initialise, hstream, hresponses, hselect, hblocks, hir]

/-- In Uncreated CREATE and HASH start from what `initialise` writes, and every other command answers an error. -/
theorem Indistinguishable.effect_of_uncreated {s t : State} (h : Indistinguishable s t) (hs : s.phase = .uncreated)
    (i : Instr) (hi : isHostCommand i = true) : Indistinguishable (effect i s) (effect i t) := by
  have ht : t.phase = .uncreated := h.phase ▸ hs
  cases i with
  | create d =>
    cases hp : parameterSet d with
    | none => simpa [effect, hp] using h.raise .invalidParameter
    | some p => simpa [effect, hp, h.initialise_eq p] using Indistinguishable.refl _
  | hash d m =>
    cases hp : parameterSet d with
    | none => simpa [effect, hp] using h.raise .invalidParameter
    | some p => simpa [effect, hp, hashed, h.initialise_eq p] using Indistinguishable.refl _
  | update data => simpa [effect, State.inPhase, State.isAbsorbing, hs, ht] using h.raise .invalidState
  | finalize => simpa [effect, State.inPhase, State.isAbsorbing, hs, ht] using h.raise .invalidState
  | reset => simpa [effect, State.inPhase, State.isCreated, hs, ht] using h.raise .invalidState
  | hexenc => simpa [effect, State.inPhase, State.isFinalized, hs, ht] using h.raise .invalidState
  | _ => cases hi

theorem Indistinguishable.effect_of_hostCommand {s t : State} (h : Indistinguishable s t) (i : Instr)
    (hi : isHostCommand i = true) : Indistinguishable (effect i s) (effect i t) := by
  by_cases hs : s.phase = .uncreated
  · exact h.effect_of_uncreated hs i hi
  · rw [h.eq_of_created hs]
    exact .refl _

/-- Two indistinguishable states answer a step of the stream alike: the same refusal, or indistinguishable states. -/
theorem Indistinguishable.step_cases {s t : State} (h : Indistinguishable s t) (hsel : s.select = none) :
    (∃ r, step s = .refused r ∧ step t = .refused r) ∨
      ∃ s' t', step s = .next s' ∧ step t = .next t' ∧ Indistinguishable s' t' := by
  have hselt : t.select = none := h.interfaces.select ▸ hsel
  have hstream : s.stream = t.stream := h.interfaces.stream
  by_cases hnil : s.stream = []
  · exact .inr ⟨s, t, step_of_nil s hsel hnil, step_of_nil t hselt (hstream ▸ hnil), h⟩
  · cases hd : decodeCommand s.stream with
    | error e =>
      exact .inl ⟨refusalOf e, step_of_error s e hsel hnil hd,
        step_of_error t e hselt (hstream ▸ hnil) (hstream ▸ hd)⟩
    | ok command =>
      obtain ⟨i, rest⟩ := command
      have hi := (decodeCommand_host s.stream rest i hd).1
      refine .inr ⟨_, _, ?_, ?_, (h.withStream rest).effect_of_hostCommand i hi⟩
      · rw [step_of_ok s i rest hsel hd, exec_hostCommand i _ hi]
      · rw [step_of_ok t i rest hselt (hstream ▸ hd), exec_hostCommand i _ hi]

/-- Settles O40: one step of two indistinguishable states, by the case lemma. -/
theorem powerOnContentsUnobservable : Obligations.PowerOnContentsUnobservable := by
  intro s t h hsel
  rcases h.step_cases hsel with ⟨r, hs, ht⟩ | ⟨s', t', hs, ht, hnext⟩
  · simp [hs, ht]
  · simpa [hs, ht] using hnext

/-! ### The storage bounds (R26, R28, R32, R171) -/

theorem StorageBounds.respond {s : State} (h : StorageBounds s) (r : Response) : StorageBounds (s.respond r) :=
  ⟨h.cnt_lt, h.dig_length, h.ir_none⟩

theorem storageBounds_initialise (s : State) (p : DigestSize) (hir : s.ir = none) :
    StorageBounds (s.initialise p) where
  cnt_lt := by
    have := rateBytes_bounds p
    simp only [State.cnt, State.rateBytes, initialise_buf, initialise_dsz, List.length_nil]
    omega
  dig_length := invalidDigest_length p
  ir_none := hir

theorem StorageBounds.append {s : State} (h : StorageBounds s) (v : Byte) : StorageBounds (s.append v) where
  cnt_lt := by simpa using append_cnt_lt s v h.cnt_lt
  dig_length := by simpa [State.digestBytes] using h.dig_length
  ir_none := append_ir s v h.ir_none

theorem StorageBounds.absorbBytes {s : State} (h : StorageBounds s) (data : List Byte) :
    StorageBounds (s.absorbBytes data) where
  cnt_lt := by simpa using absorbBytes_cnt_lt data s h.cnt_lt
  dig_length := by simpa [State.digestBytes] using h.dig_length
  ir_none := absorbBytes_ir s data h.ir_none

/-- FINALIZE leaves an empty buffer, a whole digest and no round index, from any state. -/
theorem storageBounds_finish (s : State) : StorageBounds s.finish := by
  have := rateBytes_bounds s.dsz
  rw [finish_eq]
  refine ⟨?_, squeezeBytes_length s.dsz _, rfl⟩
  simp only [State.cnt, State.rateBytes, List.length_nil]
  omega

theorem StorageBounds.squeeze {s : State} (h : StorageBounds s) : StorageBounds s.squeeze :=
  ⟨h.cnt_lt, squeezeBytes_length s.dsz s.lanes, h.ir_none⟩

theorem StorageBounds.hostUpdate {i : Instr} {s t : State} (h : StorageBounds s) (hu : HostUpdate i s t) :
    StorageBounds t := by
  cases hu with
  | unchanged => exact h
  | create d p => exact storageBounds_initialise s p h.ir_none
  | update data => exact h.absorbBytes data
  | finalize => exact storageBounds_finish s
  | reset => exact storageBounds_initialise s s.dsz h.ir_none
  | hash => exact storageBounds_finish _

theorem StorageBounds.microUpdate {i : Instr} {s t : State} (h : StorageBounds s) (hu : MicroUpdate i s t) :
    StorageBounds t := by
  cases hu with
  | lanes A ir marks index =>
    have hir : ir = none := index.elim (fun kept => kept.trans h.ir_none) id
    exact ⟨h.cnt_lt, h.dig_length, hir⟩
  | bufAppend v => exact h.append v
  | pad => exact ⟨h.cnt_lt, h.dig_length, h.ir_none⟩
  | squeeze => exact h.squeeze

/-- Settles O44: the rule of each operation, over what a host command and a micro-operation can do. -/
theorem storageBoundsKept : Obligations.StorageBoundsKept := by
  intro i s t h ht
  rw [exec_next i s t ht]
  cases hi : isHostCommand i with
  | true =>
    obtain ⟨u, r, heffect, hu⟩ := hostCommand_update i s hi
    rw [heffect]
    exact (h.hostUpdate hu).respond r
  | false => exact h.microUpdate (microOperation_update i s hi)

/-! ### The invariants between commands (R38 items 1 to 4) -/

/-- In Uncreated nothing is asked of A, BUF, CNT, DSZ and DIG (R38 item 1). -/
theorem idleInv_of_uncreated {s : State} (hp : s.phase = .uncreated) (hir : s.ir = none) (hsel : s.select = none) :
    IdleInv s := by
  refine ⟨fun hc => absurd hp hc, hir, hsel, fun hf => ?_, fun hf => ?_⟩ <;> simp [hp] at hf

/-- In Absorbing the invariant is that of the storage, with no micro-operation pending. -/
theorem idleInv_of_absorbing {s : State} (hp : s.phase = .absorbing) (hb : StorageBounds s) (hsel : s.select = none) :
    IdleInv s := by
  refine ⟨fun _ => hb, hb.ir_none, hsel, fun hf => ?_, fun hf => ?_⟩ <;> simp [hp] at hf

theorem IdleInv.withStream {s : State} (h : IdleInv s) (bytes : List Byte) : IdleInv { s with stream := bytes } where
  created_bounds hp :=
    have hb := h.created_bounds hp
    ⟨hb.cnt_lt, hb.dig_length, hb.ir_none⟩
  ir_none := h.ir_none
  select_none := h.select_none
  finalized_empty := h.finalized_empty
  finalized_digest := h.finalized_digest

theorem IdleInv.respond {s : State} (h : IdleInv s) (r : Response) : IdleInv (s.respond r) where
  created_bounds hp := (h.created_bounds hp).respond r
  ir_none := h.ir_none
  select_none := h.select_none
  finalized_empty := h.finalized_empty
  finalized_digest := h.finalized_digest

theorem IdleInv.initialise {s : State} (h : IdleInv s) (p : DigestSize) : IdleInv (s.initialise p) :=
  idleInv_of_absorbing rfl (storageBounds_initialise s p h.ir_none) h.select_none

theorem IdleInv.absorbBytes {s : State} (h : IdleInv s) (hp : s.phase = .absorbing) (data : List Byte) :
    IdleInv (s.absorbBytes data) :=
  idleInv_of_absorbing (by simpa using hp) ((h.created_bounds (by simp [hp])).absorbBytes data)
    (by simpa using h.select_none)

/-- FINALIZE establishes the invariant of Finalized: an empty buffer, and DIG read out of the lanes it leaves. -/
theorem idleInv_finish {s : State} (hsel : s.select = none) : IdleInv s.finish where
  created_bounds _ := storageBounds_finish s
  ir_none := (storageBounds_finish s).ir_none
  select_none := by rw [finish_eq]; exact hsel
  finalized_empty _ := by rw [finish_eq]
  finalized_digest _ := by rw [finish_eq]

theorem IdleInv.hostUpdate {i : Instr} {s t : State} (h : IdleInv s) (hu : HostUpdate i s t) : IdleInv t := by
  cases hu with
  | unchanged => exact h
  | create d p => exact h.initialise p
  | update data absorbing => exact h.absorbBytes absorbing data
  | finalize => exact idleInv_finish h.select_none
  | reset => exact h.initialise s.dsz
  | hash d p m => exact idleInv_finish ((h.initialise p).absorbBytes rfl m).select_none

/-- Settles O45: a step waits, or runs a host command of the stream; no micro-operation is pending. -/
theorem idleInvariantKept : Obligations.IdleInvariantKept := by
  intro s t h ht
  rcases step_next_cases s t ht with ⟨-, -, rfl⟩ | ⟨i, rest, -, hd, rfl⟩ | ⟨w, -, hsel, -⟩
  · exact h
  · obtain ⟨u, r, heffect, hu⟩ := hostCommand_update i { s with stream := rest } (decodeCommand_host _ _ _ hd).1
    rw [heffect]
    exact ((h.withStream rest).hostUpdate hu).respond r
  · rw [h.select_none] at hsel
    cases hsel

/-- Settles O43: after power-on the engine is Uncreated, with no round index and no micro-operation. -/
theorem idleInvariantAtPowerOn : Obligations.IdleInvariantAtPowerOn :=
  ⟨idleInv_of_uncreated rfl rfl rfl, fun _ _ _ _ => idleInv_of_uncreated rfl rfl rfl⟩

/-! ### The sponge invariant (R38 item 5) -/

/-- The block XOR a byte at a time and a lane at a time absorb the blocks of a message alike (R116). -/
theorem absorbBlocks_wholeBlocks (p : DigestSize) (A : Lanes) (m : List Byte) :
    absorbBlocks A (wholeBlocks p.rateBytes m) = absorbBlocksByByte A (wholeBlocks p.rateBytes m) := by
  have hr := rateBytes_bounds p
  refine (absorbBlocksByByte_eq A _ fun q hq => ?_).symm
  have := wholeBlocks_mem_length _ _ _ hq
  omega

theorem HasAbsorbed.respond {p : DigestSize} {m : List Byte} {s : State} (h : HasAbsorbed p m s) (r : Response) :
    HasAbsorbed p m (s.respond r) :=
  ⟨h.phase_absorbing, h.size, h.lanes_eq, h.buf_eq⟩

theorem hasAbsorbed_initialise (p : DigestSize) (s : State) : HasAbsorbed p [] (s.initialise p) where
  phase_absorbing := rfl
  size := rfl
  lanes_eq := by simp [wholeBlocks]
  buf_eq := by simp [lastBytes]

theorem HasAbsorbed.absorbBytes {p : DigestSize} {m : List Byte} {s : State} (h : HasAbsorbed p m s)
    (data : List Byte) : HasAbsorbed p (m ++ data) (s.absorbBytes data) := by
  obtain ⟨hphase, rfl, hlanes, hbuf⟩ := h
  rw [absorbBlocks_wholeBlocks] at hlanes
  have key := absorbBytes_from data s zeroLanes m hlanes hbuf
  refine ⟨by simpa using hphase, by simp, ?_, by rw [key]; rfl⟩
  rw [absorbBlocks_wholeBlocks, key]
  rfl

theorem HasAbsorbed.finish_dig {p : DigestSize} {m : List Byte} {s : State} (h : HasAbsorbed p m s) :
    s.finish.dig = sha3 p m := by
  obtain ⟨-, rfl, hlanes, hbuf⟩ := h
  rw [absorbBlocks_wholeBlocks] at hlanes
  rw [finish_eq, sha3]
  exact congrArg (squeezeBytes s.dsz) (finalLanes_of s zeroLanes m hlanes hbuf)

/-- Settles O46: each command in the phase that accepts it, and the rule of what it does. -/
theorem spongeInvariant : Obligations.SpongeInvariant := by
  refine ⟨fun s t d p hd ht => ?create, fun s t hp ht => ?reset, fun s t p m data h ht => ?update,
    fun s t p m h ht => ?finalize⟩
  case create =>
    obtain rfl := Host.Outcome.next.inj
      ((execCreate_legal d p s ((parameterSet_eq_some d p).mpr hd)).symm.trans ht)
    exact (hasAbsorbed_initialise p s).respond .ok
  case reset =>
    obtain rfl := Host.Outcome.next.inj ((execReset_created s hp).symm.trans ht)
    exact (hasAbsorbed_initialise s.dsz s).respond .ok
  case update =>
    obtain rfl := Host.Outcome.next.inj ((execUpdate_absorbing data s h.phase_absorbing).symm.trans ht)
    exact (h.absorbBytes data).respond .ok
  case finalize =>
    obtain rfl := Host.Outcome.next.inj ((execFinalize_absorbing s h.phase_absorbing).symm.trans ht)
    rw [respond_responses, h.finish_dig, finish_eq]

/-! ### The byte view (R22) -/

theorem laneByte_toNat (a : Lane) (k : Nat) : (laneByte a k).toNat = a.toNat / 2 ^ (8 * k) % 256 := by
  simp [laneByte, Nat.shiftRight_eq_div_pow]

/-- S[8L + k] is byte k of lane L. -/
theorem stateByte_eq_laneByte (A : Lanes) (x y : Fin 5) (i : Fin 200) (h : i.val / 8 = x.val + 5 * y.val) :
    stateByte A i = laneByte (lane A x y) (i.val % 8) := by
  simp [stateByte, lane, laneNumber, h]

/-- The low `n` bytes of a number, summed by their weights. -/
theorem sum_bytes (a n : Nat) : ∑ k ∈ Finset.range n, 2 ^ (8 * k) * (a / 2 ^ (8 * k) % 256) = a % 2 ^ (8 * n) := by
  induction n with
  | zero => simp [Nat.mod_one]
  | succ n ih =>
    rw [Finset.sum_range_succ, ih, show 2 ^ (8 * (n + 1)) = 2 ^ (8 * n) * 256 by ring, Nat.mod_mul]

theorem lane_eq_sum_laneByte (a : Lane) : a.toNat = ∑ k : Fin 8, 2 ^ (8 * k.val) * (laneByte a k.val).toNat := by
  simp only [laneByte_toNat]
  rw [Fin.sum_univ_eq_sum_range fun k => 2 ^ (8 * k) * (a.toNat / 2 ^ (8 * k) % 256), sum_bytes,
    Nat.mod_eq_of_lt a.isLt]

/-- A lane write changes the eight bytes of its lane. -/
theorem stateByte_set (A : Lanes) (L : Fin 25) (a : Lane) (i : Fin 200) :
    stateByte (A.set L a) i = if i.val / 8 = L.val then laneByte a (i.val % 8) else stateByte A i := by
  by_cases h : i.val / 8 = L.val
  · simp [stateByte, h]
  · simp [stateByte, h, Ne.symm h]

/-- Settles O5: the byte of a lane, the lane as their sum, the flattened state, and the two writes. -/
theorem byteViewOfLanes : Obligations.ByteViewOfLanes := by
  refine ⟨fun A x y i h => ?byte, fun A x y => ?sum, fun A => ⟨stateBytes_length A, stateBytes_getElem? A⟩,
    stateByte_set, stateByte_xorStateByte⟩
  case byte => rw [stateByte_eq_laneByte A x y i h, laneByte_toNat]
  case sum =>
    rw [lane_eq_sum_laneByte]
    refine Finset.sum_congr rfl fun k _ => ?_
    rw [stateByte_eq_laneByte A x y ⟨8 * (x.val + 5 * y.val) + k.val, by omega⟩ (by simp only; omega)]
    simp [Nat.mod_eq_of_lt k.isLt]

/-! ### The write matrix (R36) -/

/-- `i` may go from `s` to `t`: no column without a mark, and of the interfaces only the responses and PAD's block. -/
def WritesOnlyMarked (i : Instr) (s t : State) : Prop :=
  (.lanes ∉ writeMatrix i → t.lanes = s.lanes) ∧ (.buf ∉ writeMatrix i → t.buf = s.buf) ∧
    (.dsz ∉ writeMatrix i → t.dsz = s.dsz) ∧ (.phase ∉ writeMatrix i → t.phase = s.phase) ∧
    (.dig ∉ writeMatrix i → t.dig = s.dig) ∧ t.stream = s.stream ∧ t.select = s.select ∧
    (i ≠ .pad → t.blocks = s.blocks)

theorem HostUpdate.writesOnlyMarked {i : Instr} {s t : State} (hu : HostUpdate i s t) : WritesOnlyMarked i s t := by
  cases hu with
  | unchanged => simp [WritesOnlyMarked]
  | create d p => simp [WritesOnlyMarked, writeMatrix]
  | update data => simp [WritesOnlyMarked, writeMatrix]
  | finalize => simp [WritesOnlyMarked, writeMatrix, finish_eq]
  | reset => simp [WritesOnlyMarked, writeMatrix]
  | hash d p m => simp [WritesOnlyMarked, writeMatrix, hashed_spec]

theorem MicroUpdate.writesOnlyMarked {i : Instr} {s t : State} (hu : MicroUpdate i s t) : WritesOnlyMarked i s t := by
  cases hu with
  | lanes A ir marks => simp [WritesOnlyMarked, marks]
  | bufAppend v => simp [WritesOnlyMarked, writeMatrix]
  | pad p => simp [WritesOnlyMarked]
  | squeeze => simp [WritesOnlyMarked, writeMatrix]

/-- Settles O37: the frame of what a host command and a micro-operation can do; a response is no column. -/
theorem writeMatrix_respected : Obligations.WriteMatrix := by
  intro i s t ht
  rw [exec_next i s t ht]
  cases hi : isHostCommand i with
  | true =>
    obtain ⟨u, r, heffect, hu⟩ := hostCommand_update i s hi
    rw [heffect]
    exact hu.writesOnlyMarked
  | false => exact (microOperation_update i s hi).writesOnlyMarked

/-! ### The digest register (R28) -/

/-- Settles O38: UPDATE and FINALIZE write only in Absorbing, and HEXENC writes nothing. -/
theorem digestImmutableWhileFinalized : Obligations.DigestImmutableWhileFinalized := by
  intro i s t hi hp ht
  obtain ⟨u, r, heffect, hu⟩ := hostCommand_update i s hi
  rw [exec_next i s t ht, heffect]
  cases hu with
  | unchanged => exact .inl ⟨hp, rfl⟩
  | create d p => exact .inr (.inl ⟨d, rfl⟩)
  | update data absorbing => simp [hp] at absorbing
  | finalize absorbing => simp [hp] at absorbing
  | reset => exact .inr (.inr (.inl rfl))
  | hash d p m => exact .inr (.inr (.inr ⟨d, m, rfl⟩))

/-! ### Power-on and the two ROMs -/

/-- Settles O1: the fields of `State.reset`, and the step of an idle engine. -/
theorem powerOnStateIsIdle : Obligations.PowerOnStateIsIdle :=
  ⟨rfl, rfl, rfl, rfl, rfl, rfl, step_of_nil State.reset rfl rfl⟩

/-- Settles O3: both tables are closed data, compared with the runs of their procedures entry by entry. -/
theorem romsFollowTheirProcedures : Obligations.RomsFollowTheirProcedures := by
  refine ⟨?constants, ?origin, ?walk⟩
  case constants => decide
  case origin => rfl
  case walk => decide

end Sys2Proof.Machine

/-! # Proofs: the storage (spec/20_memory.md)

What repeating an operation does, and what a command lets the host see of the storage. -/

namespace Sys2Proof.Machine

/-! ### XOR_STATE_BYTE twice (R58, R110) -/

theorem xorStateByte_xorStateByte (A : Lanes) (i : Fin 200) (v : Byte) :
    xorStateByte (xorStateByte A i.val v) i.val v = A := by
  refine lanes_ext_bytes fun j => ?_
  rw [stateByte_xorStateByte, stateByte_xorStateByte]
  by_cases hj : j = i
  · simp [hj]
  · simp [hj]

theorem xorByte_xorByte (s : State) (i : Fin 200) (v : Byte) : (s.xorByte i.val v).xorByte i.val v = s := by
  simp [State.xorByte, xorStateByte_xorStateByte]

/-! ### What a response leaves alone, and what CREATE writes again -/

/-- A response is no part of the architectural state (R29). -/
theorem sameInstance_respond (s : State) (r : Response) : SameInstance s (s.respond r) :=
  ⟨rfl, rfl, rfl, rfl, rfl, rfl⟩

theorem SameInstance.respond {s t : State} (h : SameInstance s t) (r : Response) : SameInstance s (t.respond r) :=
  ⟨h.lanes, h.buf, h.dsz, h.phase, h.dig, h.ir⟩

/-- What `initialise` writes depends on the size alone (R161), so a second run finds it written. -/
theorem initialise_of_initialised (s : State) (p : DigestSize) (r : Response) :
    ((s.initialise p).respond r).initialise p = (s.initialise p).respond r := rfl

/-! ### The response as a function of PHASE and DIG (R63) -/

/-- `Answers i s r`: the command `i` runs from `s` and delivers the one response `r`. -/
def Answers (i : Instr) (s : State) (r : Response) : Prop :=
  ∃ t, exec i s = .next t ∧ t.responses = s.responses ++ [r]

theorem answers_of_respond {i : Instr} {s t : State} {r : Response} (h : exec i s = .next (t.respond r))
    (ht : t.responses = s.responses) : Answers i s r :=
  ⟨t.respond r, h, by rw [respond_responses, ht]⟩

theorem answers_of_raise {i : Instr} {s : State} {e : Error} (h : exec i s = .next (s.raise e)) :
    Answers i s (.error e) :=
  answers_of_respond h rfl

/-- HEXENC only responds, with the text of DIG or the error of its phase test (R125). -/
theorem exec_hexenc_responds (ph : Phase) (dig : List Byte) :
    ∃ r, ∀ s : State, s.phase = ph → s.dig = dig → exec .hexenc s = .next (s.respond r) := by
  by_cases hp : ph = .finalized
  · exact ⟨.text (hexText dig), fun s hs hd => hd ▸ execHexenc_finalized s (hs.trans hp)⟩
  · exact ⟨.error .invalidState, fun s hs _ => execHexenc_other s (hs ▸ hp)⟩

/-- But for FINALIZE and HASH, PHASE and DIG decide a host command's response, whatever A, BUF and DSZ hold. -/
theorem hostCommand_answers (i : Instr) (ph : Phase) (dig : List Byte) (hi : isHostCommand i = true)
    (hfinalize : i ≠ .finalize) (hhash : ∀ d m, i ≠ .hash d m) :
    ∃ r, ∀ s : State, s.phase = ph → s.dig = dig → Answers i s r := by
  cases i with
  | create d =>
    cases hp : parameterSet d with
    | some p => exact ⟨.ok, fun s _ _ => answers_of_respond (execCreate_legal d p s hp) rfl⟩
    | none => exact ⟨.error .invalidParameter, fun s _ _ => answers_of_raise (execCreate_illegal d s hp)⟩
  | update data =>
    by_cases hp : ph = .absorbing
    · exact ⟨.ok, fun s hs _ =>
        answers_of_respond (execUpdate_absorbing data s (hs.trans hp)) (absorbBytes_responses s data)⟩
    · exact ⟨.error .invalidState, fun s hs _ => answers_of_raise (execUpdate_other data s (hs ▸ hp))⟩
  | reset =>
    by_cases hp : ph = .uncreated
    · exact ⟨.error .invalidState, fun s hs _ => answers_of_raise (execReset_uncreated s (hs.trans hp))⟩
    · exact ⟨.ok, fun s hs _ => answers_of_respond (execReset_created s (hs ▸ hp)) rfl⟩
  | hexenc =>
    obtain ⟨r, hr⟩ := exec_hexenc_responds ph dig
    exact ⟨r, fun s hs hd => answers_of_respond (hr s hs hd) rfl⟩
  | finalize => exact absurd rfl hfinalize
  | hash d m => exact absurd rfl (hhash d m)
  | _ => cases hi

/-! ### The obligations of 20_memory.md -/

/-- Settles O17: XOR is its own inverse byte by byte, HEXENC and an empty UPDATE only respond, and the second CREATE or
RESET writes what stands there, or answers the first one's error. -/
theorem repeatingRestoresOrKeeps : Obligations.RepeatingRestoresOrKeeps := by
  refine ⟨fun s t u i v ht hu => ?xor, fun s => ?hexenc, fun s => ?update, fun s d => ?create, fun s => ?reset⟩
  case xor =>
    obtain rfl := exec_next _ s t ht
    obtain rfl := exec_next _ _ u hu
    exact xorByte_xorByte s i v
  case hexenc =>
    obtain ⟨r, hr⟩ := exec_hexenc_responds s.phase s.dig
    exact ⟨_, _, r, hr s rfl rfl, hr (s.respond r) rfl rfl, sameInstance_respond s r,
      (sameInstance_respond s r).respond r, by simp⟩
  case update =>
    by_cases hp : s.phase = .absorbing
    · exact ⟨_, execUpdate_absorbing [] s hp, sameInstance_respond s .ok⟩
    · exact ⟨_, execUpdate_other [] s hp, sameInstance_respond s _⟩
  case create =>
    cases hp : parameterSet d with
    | some p =>
      have hagain := execCreate_legal d p ((s.initialise p).respond .ok) hp
      rw [initialise_of_initialised] at hagain
      exact ⟨_, _, execCreate_legal d p s hp, hagain, sameInstance_respond _ .ok⟩
    | none => exact ⟨_, _, execCreate_illegal d s hp, execCreate_illegal d _ hp, sameInstance_respond _ _⟩
  case reset =>
    by_cases hp : s.phase = .uncreated
    · exact ⟨_, _, execReset_uncreated s hp, execReset_uncreated (s.raise .invalidState) hp,
        sameInstance_respond _ _⟩
    · have hagain := execReset_created ((s.initialise s.dsz).respond .ok) (by simp)
      rw [respond_dsz, initialise_dsz, initialise_of_initialised] at hagain
      exact ⟨_, _, execReset_created s hp, hagain, sameInstance_respond _ .ok⟩

/-- Settles O41: the response that PHASE and DIG decide is the same in both states; FINALIZE's digest is read out of the
lanes it leaves. -/
theorem onlyTheDigestIsOutput : Obligations.OnlyTheDigestIsOutput := by
  refine ⟨fun i s t hi hfinalize hhash hphase hdig => ?response, fun s hp => ?finalize⟩
  case response =>
    obtain ⟨r, hr⟩ := hostCommand_answers i t.phase t.dig hi hfinalize hhash
    obtain ⟨s', hs, hsr⟩ := hr s hphase hdig
    obtain ⟨t', ht, htr⟩ := hr t rfl rfl
    exact ⟨s', t', r, hs, ht, hsr, htr⟩
  case finalize =>
    obtain ⟨-, -, hrate⟩ := digestBytes_bounds s.dsz
    refine ⟨_, execFinalize_absorbing s hp, ?_, hrate⟩
    rw [respond_responses, respond_lanes, finish_eq]
    rfl

end Sys2Proof.Machine

/-! # Proofs: the encoding (spec/30_encoding.md)

The two decoders are characterised once: each reads an instruction exactly when the instruction is well-formed and what
stands at the interface is its encoding (`decodeCommand_eq_ok`, `decodeSelect_eq_ok`). The round trips and HASH's expansion
follow from these two, and the refused steps from what each operand reader rejects. Of the listing form, a written operand
is text that reading leaves as it stands (`Operand`), so that a written line falls into its word and its operand
(`line_parts`) and each operand's reader inverts its writer. -/

namespace Sys2Proof

open Machine

/-! ### The operand bytes of a format M word (R78) -/

theorem selectPlain_eq_ok {code : Byte} {i j : Instr} {ops : List Byte} :
    selectPlain code i ops = .ok j ↔ ops = [] ∧ i = j := by
  cases ops <;> simp [selectPlain]

theorem selectPlain_of_ne_nil {code : Byte} {i : Instr} {ops : List Byte} (h : ops ≠ []) :
    selectPlain code i ops = .error (.badSelectOperands code) := by
  cases ops with
  | nil => exact absurd rfl h
  | cons b bs => rfl

theorem selectRound_ofNat {code : Byte} {mk : Fin 24 → Instr} (ir : Fin 24) :
    selectRound code mk [BitVec.ofNat 8 ir.val] = .ok (mk ir) := by
  have hir : ir.val % 256 = ir.val := by omega
  simp [selectRound, hir]

theorem selectRound_of_ge {code : Byte} {mk : Fin 24 → Instr} {b : Byte} (h : 24 ≤ b.toNat) :
    selectRound code mk [b] = .error (.badSelectOperands code) :=
  dif_neg h.not_gt

theorem selectRound_of_length_ne {code : Byte} {mk : Fin 24 → Instr} {ops : List Byte} (h : ops.length ≠ 1) :
    selectRound code mk ops = .error (.badSelectOperands code) := by
  match ops with
  | [] => rfl
  | [_] => exact absurd rfl h
  | _ :: _ :: _ => rfl

theorem selectRound_eq_ok {code : Byte} {mk : Fin 24 → Instr} {j : Instr} {ops : List Byte} :
    selectRound code mk ops = .ok j ↔ ∃ ir : Fin 24, ops = [BitVec.ofNat 8 ir.val] ∧ mk ir = j := by
  constructor
  · intro h
    by_cases hlen : ops.length = 1
    · obtain ⟨b, rfl⟩ := List.length_eq_one_iff.mp hlen
      by_cases hb : b.toNat < 24
      · simp only [selectRound, dif_pos hb, Except.ok.injEq] at h
        exact ⟨⟨b.toNat, hb⟩, by simp, h⟩
      · rw [selectRound_of_ge (not_lt.mp hb)] at h
        cases h
    · rw [selectRound_of_length_ne hlen] at h
      cases h
  · rintro ⟨ir, rfl, rfl⟩
    exact selectRound_ofNat ir

theorem selectXorByte_ofNat {code : Byte} (i : Fin 200) (v : Byte) (h : i.val < 144) :
    selectXorByte code [BitVec.ofNat 8 i.val, v] = .ok (.xorStateByte i v) := by
  have hi : i.val % 256 = i.val := by omega
  simp [selectXorByte, hi, h]

theorem selectXorByte_of_ge {code i v : Byte} (h : 144 ≤ i.toNat) :
    selectXorByte code [i, v] = .error (.badSelectOperands code) :=
  dif_neg h.not_gt

theorem selectXorByte_of_length_ne {code : Byte} {ops : List Byte} (h : ops.length ≠ 2) :
    selectXorByte code ops = .error (.badSelectOperands code) := by
  match ops with
  | [] => rfl
  | [_] => rfl
  | [_, _] => exact absurd rfl h
  | _ :: _ :: _ :: _ => rfl

theorem selectXorByte_eq_ok {code : Byte} {j : Instr} {ops : List Byte} :
    selectXorByte code ops = .ok j ↔
      ∃ (i : Fin 200) (v : Byte), i.val < 144 ∧ ops = [BitVec.ofNat 8 i.val, v] ∧ .xorStateByte i v = j := by
  constructor
  · intro h
    by_cases hlen : ops.length = 2
    · obtain ⟨i, v, rfl⟩ := List.length_eq_two.mp hlen
      by_cases hi : i.toNat < 144
      · simp only [selectXorByte, dif_pos hi, Except.ok.injEq] at h
        exact ⟨⟨i.toNat, by omega⟩, v, hi, by simp, h⟩
      · rw [selectXorByte_of_ge (not_lt.mp hi)] at h
        cases h
    · rw [selectXorByte_of_length_ne hlen] at h
      cases h
  · rintro ⟨i, v, hi, rfl, rfl⟩
    exact selectXorByte_ofNat i v hi

theorem selectBlock_eq_ok {code : Byte} {j : Instr} {p : List Byte} :
    selectBlock code p = .ok j ↔ p.length ∈ Config.blockSizes ∧ .absorbBlock p = j := by
  by_cases h : p.length ∈ Config.blockSizes <;> simp [selectBlock, h]

theorem selectBlock_of_notMem {code : Byte} {p : List Byte} (h : p.length ∉ Config.blockSizes) :
    selectBlock code p = .error (.badSelectOperands code) :=
  if_neg h

theorem selectByte_eq_ok {code : Byte} {j : Instr} {ops : List Byte} :
    selectByte code ops = .ok j ↔ ∃ v : Byte, ops = [v] ∧ .bufAppend v = j := by
  match ops with
  | [] => simp [selectByte]
  | [_] => simp [selectByte]
  | _ :: _ :: _ => simp [selectByte]

theorem selectByte_of_length_ne {code : Byte} {ops : List Byte} (h : ops.length ≠ 1) :
    selectByte code ops = .error (.badSelectOperands code) := by
  match ops with
  | [] => rfl
  | [_] => exact absurd rfl h
  | _ :: _ :: _ => rfl

/-! ### The decoder of the sequencer's interface (R78) -/

/-- The codes from 0x10 to 0x1B are the twelve micro-operations. -/
theorem isSelectCode_cases {code : Byte} (h : isSelectCode code = true) :
    code = Code.theta ∨ code = Code.rho ∨ code = Code.pi ∨ code = Code.chi ∨ code = Code.iota ∨ code = Code.round ∨
      code = Code.keccakF ∨ code = Code.xorStateByte ∨ code = Code.absorbBlock ∨ code = Code.bufAppend ∨
      code = Code.pad ∨ code = Code.squeeze := by
  revert code
  decide

theorem decodeSelect_unknown {w : MicroWord} (h : isSelectCode w.code = false) :
    decodeSelect w = .error (.unknownSelect w.code) := by
  have hne (c : Byte) (hc : isSelectCode c = true) : w.code ≠ c := by
    rintro rfl
    exact absurd hc (by simp [h])
  rw [decodeSelect, if_neg (hne _ rfl), if_neg (hne _ rfl), if_neg (hne _ rfl), if_neg (hne _ rfl),
    if_neg (hne _ rfl), if_neg (hne _ rfl), if_neg (hne _ rfl), if_neg (hne _ rfl), if_neg (hne _ rfl),
    if_neg (hne _ rfl), if_neg (hne _ rfl), if_neg (hne _ rfl)]

/-- `Encodes i w`: the format M word `w` is the encoding of `i`, which is within its bounds. -/
def Encodes (i : Instr) (w : MicroWord) : Prop :=
  i.wellFormed = true ∧ encode i = .micro w

theorem encodes_of_selectPlain {code : Byte} {i j : Instr} {ops : List Byte} (hi : Encodes i ⟨code, []⟩)
    (h : selectPlain code i ops = .ok j) : Encodes j ⟨code, ops⟩ := by
  obtain ⟨rfl, rfl⟩ := selectPlain_eq_ok.mp h
  exact hi

theorem encodes_of_selectRound {code : Byte} {mk : Fin 24 → Instr} {j : Instr} {ops : List Byte}
    (hmk : ∀ ir, Encodes (mk ir) ⟨code, [BitVec.ofNat 8 ir.val]⟩) (h : selectRound code mk ops = .ok j) :
    Encodes j ⟨code, ops⟩ := by
  obtain ⟨ir, rfl, rfl⟩ := selectRound_eq_ok.mp h
  exact hmk ir

theorem encodes_of_decodeSelect {w : MicroWord} {i : Instr} (h : decodeSelect w = .ok i) : Encodes i w := by
  obtain ⟨code, ops⟩ := w
  cases hc : isSelectCode code with
  | false => rw [decodeSelect_unknown hc] at h; cases h
  | true =>
    rcases isSelectCode_cases hc with
      rfl | rfl | rfl | rfl | rfl | rfl | rfl | rfl | rfl | rfl | rfl | rfl
    · exact encodes_of_selectPlain ⟨rfl, rfl⟩ h
    · exact encodes_of_selectPlain ⟨rfl, rfl⟩ h
    · exact encodes_of_selectPlain ⟨rfl, rfl⟩ h
    · exact encodes_of_selectPlain ⟨rfl, rfl⟩ h
    · exact encodes_of_selectRound (fun _ => ⟨rfl, rfl⟩) h
    · exact encodes_of_selectRound (fun _ => ⟨rfl, rfl⟩) h
    · exact encodes_of_selectPlain ⟨rfl, rfl⟩ h
    · obtain ⟨i, v, hi, rfl, rfl⟩ := selectXorByte_eq_ok.mp h
      exact ⟨decide_eq_true hi, rfl⟩
    · obtain ⟨hp, rfl⟩ := selectBlock_eq_ok.mp h
      exact ⟨decide_eq_true hp, rfl⟩
    · obtain ⟨v, rfl, rfl⟩ := selectByte_eq_ok.mp h
      exact ⟨rfl, rfl⟩
    · exact encodes_of_selectPlain ⟨rfl, rfl⟩ h
    · exact encodes_of_selectPlain ⟨rfl, rfl⟩ h

/-- A format M word means an instruction exactly when it is the encoding of it and the instruction is well-formed. -/
theorem decodeSelect_eq_ok {w : MicroWord} {i : Instr} : decodeSelect w = .ok i ↔ Encodes i w := by
  refine ⟨encodes_of_decodeSelect, ?_⟩
  rintro ⟨hwf, henc⟩
  cases i with
  | iota ir => cases henc; exact selectRound_ofNat ir
  | round ir => cases henc; exact selectRound_ofNat ir
  | xorStateByte i v => cases henc; exact selectXorByte_ofNat i v (of_decide_eq_true hwf)
  | absorbBlock p => cases henc; exact selectBlock_eq_ok.mpr ⟨of_decide_eq_true hwf, rfl⟩
  | _ => cases henc <;> rfl

/-! ### The decoder of the stream (R70 to R75, R79, R80) -/

theorem encodeCreate_sext32 (b0 b1 b2 b3 : Byte) :
    encodeCreate (sext32 (le32 b0 b1 b2 b3)) = [Code.create, b0, b1, b2, b3] := by
  rw [encodeCreate, imm32Of_sext32 _ (le32_lt ..), le32Bytes_le32]

theorem encodeUpdate_take {b0 b1 b2 b3 : Byte} {tail : List Byte} (h : le32 b0 b1 b2 b3 ≤ tail.length) :
    encodeUpdate (tail.take (le32 b0 b1 b2 b3)) =
      Code.update :: b0 :: b1 :: b2 :: b3 :: tail.take (le32 b0 b1 b2 b3) := by
  rw [encodeUpdate, List.length_take_of_le h, le32Bytes_le32]
  rfl

theorem decodeCommand_of_length_lt {code : Byte} {rest : List Byte} (hc : code = Code.create ∨ code = Code.update)
    (h : rest.length < 4) : decodeCommand (code :: rest) = .error .truncated := by
  match rest with
  | [] => rcases hc with rfl | rfl <;> rfl
  | [_] => rcases hc with rfl | rfl <;> rfl
  | [_, _] => rcases hc with rfl | rfl <;> rfl
  | [_, _, _] => rcases hc with rfl | rfl <;> rfl
  | _ :: _ :: _ :: _ :: _ =>
    simp only [List.length_cons] at h
    omega

theorem decodeCommand_update_of_lt {b0 b1 b2 b3 : Byte} {tail : List Byte} (h : tail.length < le32 b0 b1 b2 b3) :
    decodeCommand (Code.update :: b0 :: b1 :: b2 :: b3 :: tail) = .error .truncated :=
  if_pos h

theorem decodeCommand_reserved {code : Byte} (rest : List Byte)
    (h : code ∉ [Code.create, Code.update, Code.finalize, Code.reset, Code.hexenc]) :
    decodeCommand (code :: rest) = .error (.reservedCode code) := by
  simp only [List.mem_cons, List.not_mem_nil, or_false, not_or] at h
  obtain ⟨hcreate, hupdate, hfinalize, hreset, hhexenc⟩ := h
  exact (if_neg hcreate).trans <| (if_neg hupdate).trans <| (if_neg hfinalize).trans <| (if_neg hreset).trans <|
    if_neg hhexenc

/-- `Begins i bytes rest`: the stream `bytes` is the encoding of the host command `i`, which is within its bounds,
and then `rest`. -/
def Begins (i : Instr) (bytes rest : List Byte) : Prop :=
  i.wellFormed = true ∧ ∃ own, encode i = .host own ∧ bytes = own ++ rest

theorem begins_of_decode_create {bytes rest : List Byte} {i : Instr}
    (h : decodeCommand (Code.create :: bytes) = .ok (i, rest)) : Begins i (Code.create :: bytes) rest := by
  by_cases hlen : bytes.length < 4
  · rw [decodeCommand_of_length_lt (.inl rfl) hlen] at h
    cases h
  · match bytes with
    | b0 :: b1 :: b2 :: b3 :: tail =>
      cases h
      exact ⟨fitsImm32_sext32 _ (le32_lt ..), _, rfl, by rw [encodeCreate_sext32]; rfl⟩

theorem begins_of_decode_update {bytes rest : List Byte} {i : Instr}
    (h : decodeCommand (Code.update :: bytes) = .ok (i, rest)) : Begins i (Code.update :: bytes) rest := by
  by_cases hlen : bytes.length < 4
  · rw [decodeCommand_of_length_lt (.inr rfl) hlen] at h
    cases h
  · match bytes with
    | b0 :: b1 :: b2 :: b3 :: tail =>
      rcases lt_or_ge tail.length (le32 b0 b1 b2 b3) with hlt | hge
      · rw [decodeCommand_update_of_lt hlt] at h
        cases h
      · cases (if_neg hge.not_gt).symm.trans h
        have hmax := le32_lt b0 b1 b2 b3
        refine ⟨decide_eq_true ?_, _, rfl, ?_⟩
        · rw [List.length_take_of_le hge, Config.lenMax]
          omega
        · simp [encodeUpdate_take hge]

theorem begins_of_decodeCommand {bytes rest : List Byte} {i : Instr} (h : decodeCommand bytes = .ok (i, rest)) :
    Begins i bytes rest := by
  cases bytes with
  | nil => cases h
  | cons code tail =>
    by_cases hc : code ∈ [Code.create, Code.update, Code.finalize, Code.reset, Code.hexenc]
    · simp only [List.mem_cons, List.not_mem_nil, or_false] at hc
      rcases hc with rfl | rfl | rfl | rfl | rfl
      · exact begins_of_decode_create h
      · exact begins_of_decode_update h
      · cases h; exact ⟨rfl, _, rfl, rfl⟩
      · cases h; exact ⟨rfl, _, rfl, rfl⟩
      · cases h; exact ⟨rfl, _, rfl, rfl⟩
    · rw [decodeCommand_reserved tail hc] at h
      cases h

/-- The stream begins with a command exactly when it begins with the encoding of it and the command is well-formed. -/
theorem decodeCommand_eq_ok {bytes rest : List Byte} {i : Instr} :
    decodeCommand bytes = .ok (i, rest) ↔ Begins i bytes rest ∧ ∀ d m, i ≠ .hash d m := by
  refine ⟨fun h => ⟨begins_of_decodeCommand h, (decodeCommand_host bytes rest i h).2⟩, ?_⟩
  rintro ⟨⟨hwf, own, henc, rfl⟩, hhash⟩
  cases i with
  | create d => cases henc; exact decodeCommand_create d rest hwf
  | update data => cases henc; exact decodeCommand_update data rest (of_decide_eq_true hwf)
  | hash d m => exact absurd rfl (hhash d m)
  | _ => cases henc <;> rfl

/-! ### The two interfaces (R77, R78) -/

/-- The packet stands in the host's stream. -/
def Packet.isHost : Packet → Bool
  | .host _ => true
  | .micro _ => false

/-- The encoding stands at the interface of whoever can request the operation. -/
theorem isHost_encode (i : Instr) : (encode i).isHost = isHostCommand i := by
  cases i <;> rfl

theorem isHostCommand_of_encode_host {i : Instr} {own : List Byte} (h : encode i = .host own) :
    isHostCommand i = true := by
  rw [← isHost_encode, h]
  rfl

theorem isHostCommand_of_encode_micro {i : Instr} {w : MicroWord} (h : encode i = .micro w) :
    isHostCommand i = false := by
  rw [← isHost_encode, h]
  rfl

theorem decode_micro_eq_ok {w : MicroWord} {i : Instr} {rest : List Byte} :
    decode (.micro w) = .ok (i, rest) ↔ decodeSelect w = .ok i ∧ rest = [] := by
  cases h : decodeSelect w <;> simp [decode, h, Except.map, eq_comm]

/-- Settles O49: both decoders read what is the encoding of a well-formed instruction. -/
theorem decodeOfEncode : Obligations.DecodeOfEncode := by
  intro i rest hwf hhash
  cases henc : encode i with
  | host own =>
    exact ⟨isHostCommand_of_encode_host henc, decodeCommand_eq_ok.mpr ⟨⟨hwf, own, henc, rfl⟩, hhash⟩⟩
  | micro w =>
    exact ⟨isHostCommand_of_encode_micro henc, decode_micro_eq_ok.mpr ⟨decodeSelect_eq_ok.mpr ⟨hwf, henc⟩, rfl⟩⟩

/-- Settles O51: both decoders read nothing else. -/
theorem encodeOfDecode : Obligations.EncodeOfDecode := by
  refine ⟨fun bytes rest i h => ?stream, fun w rest i h => ?select⟩
  case stream =>
    obtain ⟨hwf, own, henc, hbytes⟩ := begins_of_decodeCommand h
    exact ⟨hwf, isHostCommand_of_encode_host henc, own, henc, hbytes⟩
  case select =>
    obtain ⟨hdecode, rfl⟩ := decode_micro_eq_ok.mp h
    obtain ⟨hwf, henc⟩ := decodeSelect_eq_ok.mp hdecode
    exact ⟨hwf, isHostCommand_of_encode_micro henc, henc, rfl⟩

/-! ### Streams of commands, and HASH's expansion (R70, R85) -/

/-- A command that has an encoding of its own in the host's stream, and is within its bounds. -/
def Sendable (i : Instr) : Prop :=
  i.wellFormed = true ∧ isHostCommand i = true ∧ ∀ d m, i ≠ .hash d m

theorem Sendable.decodeCommand {i : Instr} (h : Sendable i) (rest : List Byte) :
    decodeCommand ((encode i).hostBytes ++ rest) = .ok (i, rest) := by
  obtain ⟨hwf, hhost, hhash⟩ := h
  cases henc : encode i with
  | host own => exact decodeCommand_eq_ok.mpr ⟨⟨hwf, own, henc, rfl⟩, hhash⟩
  | micro w => simp [isHostCommand_of_encode_micro henc] at hhost

theorem Sendable.hostBytes_ne_nil {i : Instr} (h : Sendable i) : (encode i).hostBytes ≠ [] := by
  intro hnil
  have hdecode := h.decodeCommand []
  rw [hnil] at hdecode
  cases hdecode

/-- A stream of encodings decodes to its commands: every command takes a byte at least, so the stream's length is fuel
enough. -/
theorem decodeStreamFuel_hostBytes (commands : List Instr) (h : ∀ i ∈ commands, Sendable i) (fuel : Nat)
    (hfuel : (commands.map fun i => (encode i).hostBytes).flatten.length ≤ fuel) :
    decodeStreamFuel fuel (commands.map fun i => (encode i).hostBytes).flatten = .ok commands := by
  induction commands generalizing fuel with
  | nil => cases fuel <;> rfl
  | cons i commands ih =>
    have hi := h i List.mem_cons_self
    have hpos := List.length_pos_iff.mpr hi.hostBytes_ne_nil
    simp only [List.map_cons, List.flatten_cons, List.length_append] at hfuel ⊢
    obtain ⟨fuel, rfl⟩ : ∃ n, fuel = n + 1 := ⟨fuel - 1, by omega⟩
    rw [decodeStreamFuel_cons fuel i _ _ hi.hostBytes_ne_nil (hi.decodeCommand _),
      ih (fun j hj => h j (List.mem_cons_of_mem i hj)) fuel (by omega)]
    rfl

theorem decodeStream_hostBytes (commands : List Instr) (h : ∀ i ∈ commands, Sendable i) :
    decodeStream (commands.map fun i => (encode i).hostBytes).flatten = .ok commands :=
  decodeStreamFuel_hostBytes commands h _ le_rfl

theorem updatePieces_flatten (m : List Byte) : (updatePieces m).flatten = m :=
  cutMessage_flatten _ m

theorem updatePieces_length_le (m : List Byte) : ∀ p ∈ updatePieces m, p.length ≤ Config.lenMax :=
  cutMessage_length_le _ m (by rw [Config.lenMax]; omega)

theorem updatePieces_of_le {m : List Byte} (h : m.length ≤ Config.lenMax) : updatePieces m = [m] := by
  unfold updatePieces
  cases m.length / Config.lenMax with
  | zero => rfl
  | succ n => exact if_pos h

/-- HASH's encoding is the encodings of its expansion, one after the other (R85). -/
theorem encode_hash (d : Int) (m : List Byte) :
    encode (.hash d m) = .host ((hashExpansion d m).map fun i => (encode i).hostBytes).flatten := by
  simp [encode, hashExpansion, Packet.hostBytes, Function.comp_def]

theorem sendable_of_mem_hashExpansion {d : Int} {m : List Byte} (hd : fitsImm32 d = true) :
    ∀ i ∈ hashExpansion d m, Sendable i := by
  intro i hi
  simp only [hashExpansion, List.mem_cons, List.mem_append, List.mem_map, List.not_mem_nil, or_false] at hi
  rcases hi with rfl | ⟨p, hp, rfl⟩ | rfl
  · exact ⟨hd, rfl, by simp⟩
  · exact ⟨decide_eq_true (updatePieces_length_le m p hp), rfl, by simp⟩
  · exact ⟨rfl, rfl, by simp⟩

/-- Settles O50: the encoding is the stream of the expansion's encodings, which decodes command by command. -/
theorem hashEncodingIsItsExpansion : Obligations.HashEncodingIsItsExpansion := by
  intro d m hwf
  refine ⟨_, updatePieces m, encode_hash d m, ?_, updatePieces_flatten m, updatePieces_length_le m, updatePieces_of_le⟩
  exact decodeStream_hostBytes _ (sendable_of_mem_hashExpansion hwf)

end Sys2Proof

namespace Sys2Proof.Machine

/-! ### One step at either interface (R70, R78 to R80) -/

theorem step_of_select {s : State} {w : MicroWord} {i : Instr} (hs : s.select = some w) (h : decodeSelect w = .ok i) :
    step s = exec i { s with select := none } := by
  simp [step, State.fetch, hs, decode, h, Except.map]

theorem step_of_select_error {s : State} {w : MicroWord} {e : DecodeError} (hs : s.select = some w)
    (h : decodeSelect w = .error e) : step s = .refused (refusalOf e) := by
  simp [step, State.fetch, hs, decode, h, Except.map]

/-- Settles O55: a step by what stands at each interface. -/
theorem stepRunsTheDecodedInstruction : Obligations.StepRunsTheDecodedInstruction := by
  refine ⟨step_of_ok, fun s w i rest hs h => ?select, step_of_nil⟩
  case select => exact step_of_select hs (decode_micro_eq_ok.mp h).1

/-- Settles O52: the decoder answers the code, and the step refuses with it. -/
theorem reservedCodesAreRefused : Obligations.ReservedCodesAreRefused := by
  intro s code rest hselect hstream hcode
  exact step_of_error s _ hselect (by simp [hstream]) (hstream ▸ decodeCommand_reserved rest hcode)

/-- Settles O53: both truncated forms are the decoder's. -/
theorem truncatedCommandsAreRefused : Obligations.TruncatedCommandsAreRefused := by
  refine ⟨fun s code rest hselect hstream hcode hlen => ?header, fun s b0 b1 b2 b3 data hselect hstream hlen => ?data⟩
  case header =>
    exact step_of_error s _ hselect (by simp [hstream]) (hstream ▸ decodeCommand_of_length_lt hcode hlen)
  case data =>
    exact step_of_error s _ hselect (by simp [hstream]) (hstream ▸ decodeCommand_update_of_lt hlen)

/-- Settles O54: each clause is one operand reader's rejection, or an unknown code. -/
theorem badSelectWordsAreRefused : Obligations.BadSelectWordsAreRefused := by
  refine ⟨fun s w hs hcode => ?unknown, fun s code ops hs hcode hne => ?plain, fun s code ops hs hcode hlen => ?oneByte,
    fun s code b hs hcode hb => ?roundIndex, fun s ops hs hlen => ?xorLength, fun s i v hs hi => ?xorIndex,
    fun s ops hs hlen => ?block⟩
  case unknown =>
    refine step_of_select_error hs (decodeSelect_unknown ?_)
    simp only [isSelectCode, Bool.and_eq_false_iff, decide_eq_false_iff_not]
    omega
  case plain =>
    simp only [List.mem_cons, List.not_mem_nil, or_false] at hcode
    rcases hcode with rfl | rfl | rfl | rfl | rfl | rfl | rfl <;>
      exact step_of_select_error hs (selectPlain_of_ne_nil hne)
  case oneByte =>
    simp only [List.mem_cons, List.not_mem_nil, or_false] at hcode
    rcases hcode with rfl | rfl | rfl
    · exact step_of_select_error hs (selectRound_of_length_ne hlen)
    · exact step_of_select_error hs (selectRound_of_length_ne hlen)
    · exact step_of_select_error hs (selectByte_of_length_ne hlen)
  case roundIndex =>
    simp only [List.mem_cons, List.not_mem_nil, or_false] at hcode
    rcases hcode with rfl | rfl <;> exact step_of_select_error hs (selectRound_of_ge hb)
  case xorLength => exact step_of_select_error hs (selectXorByte_of_length_ne hlen)
  case xorIndex => exact step_of_select_error hs (selectXorByte_of_ge hi)
  case block =>
    refine step_of_select_error hs (selectBlock_of_notMem fun hmem => hlen ?_)
    simp only [Config.blockSizes, List.mem_cons, List.not_mem_nil, or_false] at hmem ⊢
    omega

/-! ### Responses and sample words (R83, R71 to R78) -/

theorem hexText_length (bytes : List Byte) : (hexText bytes).length = 2 * bytes.length := by
  simp [hexText, mul_comm]

/-- Settles O57: the payloads' lengths are those of SQUEEZE's result and of the hexadecimal form. -/
theorem responseBytes : Obligations.ResponseBytes := by
  refine ⟨rfl, fun _ => rfl, fun _ => rfl, rfl, rfl, fun s hp => ?finalize, fun s hp hdig => ?hexenc⟩
  case finalize =>
    refine ⟨_, .digest s.finish.dig, execFinalize_absorbing s hp, by simp [finish_eq], ?_⟩
    simp [encodeResponse, finish_eq, DigestSize.digestBytes, add_comm]
  case hexenc =>
    refine ⟨_, .text (hexText s.dig), execHexenc_finalized s hp, rfl, ?_⟩
    simp [encodeResponse, hexText_length, hdig, State.digestBytes, DigestSize.digestBytes, add_comm]

/-- Settles O48: nine closed words. -/
theorem sampleWordsDecode : Obligations.SampleWordsDecode := by
  unfold Obligations.SampleWordsDecode
  decide

/-! ### The listing form: the parts of a line (R84) -/

theorem dropComment_of_notMem (quoted : Bool) (cs : List Char) (h : ';' ∉ cs) : dropComment quoted cs = cs := by
  fun_induction dropComment quoted cs with
  | case1 => rfl
  | case2 quoted cs ih => rw [ih (List.not_mem_of_not_mem_cons h)]
  | case3 => exact absurd List.mem_cons_self h
  | case4 quoted c cs _ _ ih => rw [ih (List.not_mem_of_not_mem_cons h)]

/-- Text that reading leaves as it stands: it holds no comment, and no space at its two ends. -/
structure Operand (cs : List Char) : Prop where
  ne_nil : cs ≠ []
  no_comment : ';' ∉ cs
  head_ne : cs.head? ≠ some ' '
  last_ne : cs.getLast? ≠ some ' '

theorem dropWhile_space_of_head_ne {cs : List Char} (h : cs.head? ≠ some ' ') : cs.dropWhile (· == ' ') = cs := by
  cases cs with
  | nil => rfl
  | cons c cs =>
    have hc : c ≠ ' ' := by simpa using h
    simp [hc]

theorem Operand.trimSpaces_eq {cs : List Char} (h : Operand cs) : trimSpaces cs = cs := by
  have hlast : cs.reverse.head? ≠ some ' ' := by simpa using h.last_ne
  rw [trimSpaces, dropWhile_space_of_head_ne h.head_ne, dropWhile_space_of_head_ne hlast, List.reverse_reverse]

theorem trimSpaces_space_cons (cs : List Char) : trimSpaces (' ' :: cs) = trimSpaces cs := by
  simp [trimSpaces]

/-- Operands put together, whatever stands between them but a comment. -/
theorem Operand.append {a b : List Char} (ha : Operand a) (hb : Operand b) (sep : List Char) (hsep : ';' ∉ sep) :
    Operand (a ++ (sep ++ b)) where
  ne_nil := by simp [ha.ne_nil]
  no_comment := by simp [ha.no_comment, hsep, hb.no_comment]
  head_ne := by simpa [List.head?_append, List.head?_eq_some_head ha.ne_nil] using ha.head_ne
  last_ne := by simpa [List.getLast?_append, List.getLast?_eq_some_getLast hb.ne_nil] using hb.last_ne

theorem operand_of_ne_space {cs : List Char} (hne : cs ≠ []) (hcomment : ';' ∉ cs) (hspace : ' ' ∉ cs) : Operand cs where
  ne_nil := hne
  no_comment := hcomment
  head_ne h := hspace (List.mem_of_mem_head? h)
  last_ne h := hspace (List.mem_of_getLast? h)

theorem takeWhile_ne_append {a : List Char} {c : Char} (b : List Char) (h : c ∉ a) :
    (a ++ c :: b).takeWhile (· != c) = a := by
  rw [List.takeWhile_append_of_pos fun x hx => bne_iff_ne.mpr (ne_of_mem_of_not_mem hx h)]
  simp

theorem dropWhile_ne_append {a : List Char} {c : Char} (b : List Char) (h : c ∉ a) :
    (a ++ c :: b).dropWhile (· != c) = c :: b := by
  rw [List.dropWhile_append_of_pos fun x hx => bne_iff_ne.mpr (ne_of_mem_of_not_mem hx h)]
  simp

theorem span_ne_of_notMem {cs : List Char} {c : Char} (h : c ∉ cs) : cs.span (· != c) = (cs, []) := by
  have hne : ∀ x ∈ cs, (x != c) = true := fun x hx => bne_iff_ne.mpr (ne_of_mem_of_not_mem hx h)
  rw [List.span_eq_takeWhile_dropWhile, List.takeWhile_eq_self_iff.mpr hne, List.dropWhile_eq_nil_iff.mpr hne]

/-- What `readLine` takes for the word and for the operand of a line. -/
theorem line_parts (word : List Char) {operand : List Char} (hne : word ≠ []) (hcomment : ';' ∉ word)
    (hspace : ' ' ∉ word) (h : Operand operand) :
    (trimSpaces (dropComment false (word ++ ' ' :: operand))).takeWhile (· != ' ') = word ∧
      trimSpaces ((trimSpaces (dropComment false (word ++ ' ' :: operand))).dropWhile (· != ' ')) = operand := by
  have hline : Operand (word ++ ' ' :: operand) := 
    (operand_of_ne_space hne hcomment hspace).append h [' '] (by decide)
  rw [dropComment_of_notMem _ _ hline.no_comment, hline.trimSpaces_eq, takeWhile_ne_append _ hspace,
    dropWhile_ne_append _ hspace, trimSpaces_space_cons, h.trimSpaces_eq]
  exact ⟨rfl, rfl⟩

theorem readLine_create {operand : List Char} (h : Operand operand) :
    readLine (['C', 'R', 'E', 'A', 'T', 'E'] ++ ' ' :: operand) = (readInt operand).map .create := by
  obtain ⟨hword, hoperand⟩ := line_parts ['C', 'R', 'E', 'A', 'T', 'E'] (by decide) (by decide) (by decide) h
  rw [readLine, hword, hoperand]
  rfl

theorem readLine_update {operand : List Char} (h : Operand operand) :
    readLine (['U', 'P', 'D', 'A', 'T', 'E'] ++ ' ' :: operand) = (readBytes operand).map .update := by
  obtain ⟨hword, hoperand⟩ := line_parts ['U', 'P', 'D', 'A', 'T', 'E'] (by decide) (by decide) (by decide) h
  rw [readLine, hword, hoperand]
  rfl

theorem readLine_hash {d bytes : List Char} {n : Int} {m : List Byte} (hd : Operand d) (hcomma : ',' ∉ d)
    (hbytes : Operand bytes) (hn : readInt d = some n) (hm : readBytes bytes = some m) :
    readLine (['H', 'A', 'S', 'H'] ++ ' ' :: (d ++ ([',', ' '] ++ bytes))) = some (.hash n m) := by
  obtain ⟨hword, hoperand⟩ := line_parts ['H', 'A', 'S', 'H'] (by decide) (by decide) (by decide)
    (hd.append hbytes [',', ' '] (by decide))
  rw [readLine, hword, hoperand]
  simp [takeWhile_ne_append _ hcomma, dropWhile_ne_append _ hcomma, trimSpaces_space_cons, hd.trimSpaces_eq,
    hbytes.trimSpaces_eq, hn, hm]

/-! ### The listing form: integers in decimal -/

theorem readNat_toDigits (n : Nat) : readNat (Nat.toDigits 10 n) = some n := by
  have hdigits : (Nat.toDigits 10 n).all (fun c => decide ('0' ≤ c ∧ c ≤ '9')) = true := by
    rw [List.all_eq_true]
    intro c hc
    simpa [Char.isDigit, Char.le_def] using Nat.isDigit_of_mem_toDigits (by decide) le_rfl hc
  have hvalue := Nat.ofDigitChars_ten_toDigits (n := n)
  rw [Nat.ofDigitChars_eq_foldl] at hvalue
  unfold readNat
  split
  · exact absurd ‹_› Nat.toDigits_ne_nil
  · rw [if_pos hdigits]
    exact congrArg some hvalue

theorem mem_writeInt {d : Int} {c : Char} (h : c ∈ writeInt d) : c = '-' ∨ c.isDigit = true := by
  cases d with
  | ofNat n => exact .inr (Nat.isDigit_of_mem_toDigits (by decide) le_rfl h)
  | negSucc n =>
    rcases List.mem_cons.mp h with rfl | h
    · exact .inl rfl
    · exact .inr (Nat.isDigit_of_mem_toDigits (by decide) le_rfl h)

theorem notMem_writeInt {c : Char} (hminus : c ≠ '-') (hdigit : c.isDigit = false) (d : Int) : c ∉ writeInt d :=
  fun h => (mem_writeInt h).elim hminus fun h' => by simp [hdigit] at h'

theorem operand_writeInt (d : Int) : Operand (writeInt d) :=
  operand_of_ne_space (by cases d <;> simp [writeInt]) (notMem_writeInt (by decide) (by decide) d)
    (notMem_writeInt (by decide) (by decide) d)

theorem readInt_writeInt (d : Int) : readInt (writeInt d) = some d := by
  cases d with
  | ofNat n =>
    have hminus : '-' ∉ Nat.toDigits 10 n := fun h => by
      simpa using Nat.isDigit_of_mem_toDigits (by decide) le_rfl h
    rw [writeInt]
    unfold readInt
    split
    next heq => exact absurd List.mem_cons_self (heq ▸ hminus)
    next =>
      rw [readNat_toDigits]
      rfl
  | negSucc n =>
    rw [writeInt, readInt, readNat_toDigits]
    rfl

/-! ### The listing form: bytes in hexadecimal -/

theorem hexDigitValue_hexDigitChar {n : Nat} (h : n < 16) : hexDigitValue (hexDigitChar n) = some n := by
  interval_cases n <;> rfl

/-- A hexadecimal digit is none of the signs of the form. -/
theorem hexDigitChar_ne {n : Nat} (h : n < 16) {c : Char} (hc : hexDigitValue c = none) : hexDigitChar n ≠ c := by
  rintro rfl
  rw [hexDigitValue_hexDigitChar h] at hc
  cases hc

/-- A byte's two digits. -/
def hexPair (b : Byte) : List Char :=
  [hexDigitChar (b.toNat / 16), hexDigitChar (b.toNat % 16)]

theorem readByte_hexPair (b : Byte) : readByte (hexPair b) = some b := by
  have hhigh := hexDigitValue_hexDigitChar (n := b.toNat / 16) (by omega)
  have hlow := hexDigitValue_hexDigitChar (n := b.toNat % 16) (by omega)
  simp [hexPair, readByte, hhigh, hlow, Nat.div_add_mod]

theorem writeBytes_singleton (b : Byte) : writeBytes [b] = hexPair b := rfl

theorem writeBytes_cons (b c : Byte) (bs : List Byte) :
    writeBytes (b :: c :: bs) = hexPair b ++ ' ' :: writeBytes (c :: bs) := rfl

theorem notMem_hexPair {c : Char} (hc : hexDigitValue c = none) (b : Byte) : c ∉ hexPair b := by
  have hhigh := hexDigitChar_ne (n := b.toNat / 16) (by omega) hc
  have hlow := hexDigitChar_ne (n := b.toNat % 16) (by omega) hc
  simp [hexPair, hhigh.symm, hlow.symm]

theorem operand_hexPair (b : Byte) : Operand (hexPair b) :=
  operand_of_ne_space (by simp [hexPair]) (notMem_hexPair (by decide) b) (notMem_hexPair (by decide) b)

theorem operand_writeBytes (bs : List Byte) : Operand (writeBytes bs) := by
  fun_induction writeBytes bs with
  | case1 => exact operand_of_ne_space (by decide) (by decide) (by decide)
  | case2 b => exact operand_hexPair b
  | case3 b bs _ ih => exact (operand_hexPair b).append ih [' '] (by decide)

theorem notMem_writeBytes {c : Char} (hc : hexDigitValue c = none) (hspace : c ≠ ' ') (b : Byte) (bs : List Byte) :
    c ∉ writeBytes (b :: bs) := by
  induction bs generalizing b with
  | nil => exact notMem_hexPair hc b
  | cons b' bs ih => simp [writeBytes_cons, notMem_hexPair hc b, hspace, ih b']

theorem wordsOf_writeBytes (b : Byte) (bs : List Byte) : wordsOf (writeBytes (b :: bs)) = (b :: bs).map hexPair := by
  have hhigh (b : Byte) : hexDigitChar (b.toNat / 16) ≠ ' ' := hexDigitChar_ne (by omega) (by decide)
  have hlow (b : Byte) : hexDigitChar (b.toNat % 16) ≠ ' ' := hexDigitChar_ne (by omega) (by decide)
  induction bs generalizing b with
  | nil => simp [writeBytes_singleton, hexPair, wordsOf, hhigh, hlow]
  | cons b' bs ih =>
    rw [writeBytes_cons]
    simp [hexPair, wordsOf, hhigh, hlow, ih]

theorem mapM_readByte_hexPair (bs : List Byte) : (bs.map hexPair).mapM readByte = some bs := by
  induction bs with
  | nil => rfl
  | cons b bs ih => simp [readByte_hexPair, ih]

theorem readBytes_writeBytes (bs : List Byte) : readBytes (writeBytes bs) = some bs := by
  cases bs with
  | nil => rfl
  | cons b bs =>
    have hstar : '*' ∉ writeBytes (b :: bs) := notMem_writeBytes (by decide) (by decide) b bs
    unfold readBytes
    split
    next heq => exact absurd (heq ▸ List.mem_cons_self) (notMem_writeBytes rfl (by decide) b bs)
    next =>
      rw [span_ne_of_notMem hstar, wordsOf_writeBytes]
      exact mapM_readByte_hexPair (b :: bs)

/-- Settles O58: reading finds the parts of the written line, and each operand's reader inverts its writer. -/
theorem listingReadsBack : Obligations.ListingReadsBack := by
  refine ⟨fun i => ?named, fun i line h => ?read⟩
  case named => cases i <;> rfl
  case read =>
    cases i with
    | create d =>
      cases h
      exact (readLine_create (operand_writeInt d)).trans (by rw [readInt_writeInt]; rfl)
    | update data =>
      cases h
      exact (readLine_update (operand_writeBytes data)).trans (by rw [readBytes_writeBytes]; rfl)
    | hash d m =>
      cases h
      rw [List.append_assoc, List.append_assoc]
      exact readLine_hash (operand_writeInt d) (notMem_writeInt (by decide) (by decide) d) (operand_writeBytes m)
        (readInt_writeInt d) (readBytes_writeBytes m)
    | finalize => cases h; rfl
    | reset => cases h; rfl
    | hexenc => cases h; rfl
    | _ => cases h

end Sys2Proof.Machine

/-! # Proofs: the permutation (spec/40_keccak_f.md)

What THETA to KECCAK_F answer, and that each of them permutes the 1600-bit states. A step mapping is shown injective;
there are finitely many states, so it is bijective. -/

namespace Sys2Proof.Machine

/-! ### PI's coordinates and RHO's table -/

/-- PI read at the position where it puts lane (x,y) (R94). -/
theorem lane_pi_moved (A : Lanes) (x y : Fin 5) : lane (pi A) y (2 * x + 3 * y) = lane A x y := by
  have hsource : y + 3 * (2 * x + 3 * y) = x := by decide +revert
  rw [lane_pi, hsource]

theorem RHO_eq_getD (x y : Fin 5) :
    RHO[laneNumber x y] =
      [0, 1, 62, 28, 27, 36, 44, 6, 55, 20, 3, 10, 43, 25, 39, 41, 45, 15, 21, 8, 18, 2, 61, 56, 14].getD
        (x.val + 5 * y.val) 0 := by
  decide +revert

theorem RHO_lt (x y : Fin 5) : RHO[laneNumber x y] < 64 := by
  decide +revert

/-! ### Rounds one after another -/

/-- Executing rounds folds `round` over the lanes and leaves everything else alone. -/
theorem execAll_map_round (irs : List (Fin 24)) (s : State) :
    execAll (irs.map Instr.round) s = .next { s with lanes := irs.foldl round s.lanes } := by
  induction irs generalizing s with
  | nil => rfl
  | cons ir irs ih => exact ih { s with lanes := round s.lanes ir }

/-- The lanes after the first `n` rounds of KECCAK_F (R98). -/
def afterRounds (A : Lanes) (n : Nat) : Lanes :=
  ((List.finRange 24).take n).foldl round A

theorem afterRounds_all (A : Lanes) : afterRounds A 24 = keccakF A := by
  rw [keccakF_eq, afterRounds, List.take_of_length_le (by simp)]

theorem afterRounds_succ (A : Lanes) (ir : Fin 24) :
    afterRounds A (ir.val + 1) = round (afterRounds A ir.val) ir := by
  have hir : (List.finRange 24)[ir.val]? = some ir := by simp
  rw [afterRounds, List.take_add_one, hir, Option.toList_some, List.foldl_concat, afterRounds]

/-! ### Bijective from injective -/

theorem finite_lanes : Finite Lanes :=
  Finite.of_injective lane fun _ _ h => lanes_ext fun x y => congrFun (congrFun h x) y

/-- There are finitely many states of the lanes, so one that loses none of them reaches all. -/
theorem bijective_of_injective {f : Lanes → Lanes} (h : Function.Injective f) : Function.Bijective f :=
  have := finite_lanes
  Finite.injective_iff_bijective.mp h

/-! ### THETA

THETA changes the column parities C by C'[x] = C[x] ^ C[x+4] ^ ROL(C[x+1],1). Composed with itself such a map only
doubles its two distances and its rotation, as every other term occurs twice. After six doublings nothing is rotated,
and there the square is the map's inverse. So C' determines C, and then A' determines A. -/

theorem lane_xor_left_comm (a b c : Lane) : a ^^^ (b ^^^ c) = b ^^^ (a ^^^ c) := by
  rw [← BitVec.xor_assoc, BitVec.xor_comm a b, BitVec.xor_assoc]

/-- Each column takes up the one at distance `p`, and the one at distance `q` rotated by `n`. -/
def mixColumns (p q : Fin 5) (n : Nat) (C : Fin 5 → Lane) (x : Fin 5) : Lane :=
  C x ^^^ (C (x + p) ^^^ rol (C (x + q)) n)

/-- The five rows add the column's D five times, which is once. -/
theorem columnParity_theta (A : Lanes) : columnParity (theta A) = mixColumns 4 1 1 (columnParity A) := by
  funext x
  simp only [columnParity, lane_theta, mixColumns]
  simp [BitVec.xor_assoc]

theorem mixColumns_comp_self (p q : Fin 5) (n : Nat) (hn : n < 64) :
    mixColumns p q n ∘ mixColumns p q n = mixColumns (p + p) (q + q) ((n + n) % 64) := by
  funext C x
  have hpq : x + q + p = x + p + q := add_right_comm x q p
  simp only [Function.comp_apply, mixColumns, rol_xor _ _ n hn, rol_rol _ n n hn hn, hpq, ← add_assoc]
  simp [BitVec.xor_assoc, lane_xor_left_comm]

theorem mixColumns_injective_of_doubled {p q : Fin 5} {n : Nat} (hn : n < 64)
    (h : Function.Injective (mixColumns (p + p) (q + q) ((n + n) % 64))) : Function.Injective (mixColumns p q n) := by
  rw [← mixColumns_comp_self p q n hn] at h
  exact h.of_comp

/-- Without a rotation, and with the distances 1 and 4, the square is the inverse. -/
theorem mixColumns_unrotated_leftInverse : Function.LeftInverse (mixColumns 2 3 0) (mixColumns 1 4 0) := by
  intro C
  funext x
  simp only [mixColumns, rol_by_zero]
  fin_cases x <;> simp [BitVec.xor_assoc, BitVec.xor_comm, lane_xor_left_comm]

/-- The doublings: (4,1,1), (3,2,2), (1,4,4), (2,3,8), (4,1,16), (3,2,32), (1,4,0). -/
theorem mixColumns_theta_injective : Function.Injective (mixColumns 4 1 1) := by
  iterate 6 refine mixColumns_injective_of_doubled (by decide) ?_
  exact mixColumns_unrotated_leftInverse.injective

theorem theta_injective : Function.Injective theta := by
  intro A B h
  have hparity : columnParity A = columnParity B :=
    mixColumns_theta_injective (by rw [← columnParity_theta, ← columnParity_theta, h])
  refine lanes_ext fun x y => ?_
  have hlane : lane (theta A) x y = lane (theta B) x y := by rw [h]
  rw [lane_theta, lane_theta, hparity] at hlane
  exact (BitVec.xor_left_inj _).mp hlane

/-! ### RHO and PI -/

/-- Rotating on by what is left to 64 undoes ROL. -/
theorem rol_leftInverse (n : Nat) (hn : n < 64) :
    Function.LeftInverse (fun a => rol a ((64 - n) % 64)) fun a => rol a n := by
  intro a
  have hturn : (n + (64 - n) % 64) % 64 = 0 := by omega
  change rol (rol a n) ((64 - n) % 64) = a
  rw [rol_rol a n _ hn (Nat.mod_lt _ (by decide)), hturn, rol_by_zero]

theorem rho_injective : Function.Injective rho := by
  intro A B h
  refine lanes_ext fun x y => (rol_leftInverse _ (RHO_lt x y)).injective ?_
  rw [← lane_rho, ← lane_rho, h]

theorem pi_injective : Function.Injective pi := by
  intro A B h
  refine lanes_ext fun x y => ?_
  rw [← lane_pi_moved A, ← lane_pi_moved B, h]

/-! ### CHI -/

/-- The inverse of CHI on a row: A[x] from A'[x], ..., A'[x+4]. -/
def chiInverse (A : Lanes) : Lanes :=
  ofCoords fun x y =>
    lane A x y ^^^
      (~~~ lane A (x + 1) y &&& (lane A (x + 2) y ^^^ (~~~ lane A (x + 3) y &&& lane A (x + 4) y)))

/-- CHI then its inverse, on the bits a, b, c, d, e of a row from some place on, round the row. -/
theorem chiInverse_chi_bits (a b c d e : Bool) :
    ((a ^^ (!b && c)) ^^
      (!(b ^^ (!c && d)) && ((c ^^ (!d && e)) ^^ (!(d ^^ (!e && a)) && (e ^^ (!a && b)))))) = a := by
  decide +revert

theorem chiInverse_chi : Function.LeftInverse chiInverse chi := by
  intro A
  refine lanes_ext fun x y => lane_ext_bits fun j hj => ?_
  simpa [chiInverse, lane_chi, hj, add_assoc] using
    chiInverse_chi_bits ((lane A x y).getLsbD j) ((lane A (x + 1) y).getLsbD j) ((lane A (x + 2) y).getLsbD j)
      ((lane A (x + 3) y).getLsbD j) ((lane A (x + 4) y).getLsbD j)

/-! ### IOTA, ROUND and KECCAK_F -/

theorem iota_involutive (ir : Fin 24) : Function.Involutive fun A => iota A ir := by
  intro A
  refine lanes_ext fun x y => ?_
  by_cases h : x = 0 ∧ y = 0
  · obtain ⟨rfl, rfl⟩ := h
    rw [lane_iota_origin, lane_iota_origin, xor_cancel_right]
  · rw [lane_iota_other _ _ _ _ h, lane_iota_other _ _ _ _ h]

theorem round_injective (ir : Fin 24) : Function.Injective fun A => round A ir :=
  (iota_involutive ir).injective.comp
    (chiInverse_chi.injective.comp (pi_injective.comp (rho_injective.comp theta_injective)))

theorem rounds_injective (irs : List (Fin 24)) : Function.Injective fun A => irs.foldl round A := by
  induction irs with
  | nil => exact Function.injective_id
  | cons ir irs ih => exact ih.comp (round_injective ir)

theorem keccakF_injective : Function.Injective keccakF := by
  rw [funext keccakF_eq]
  exact rounds_injective _

/-! ### The obligations of 40_keccak_f.md -/

/-- Settles O14: each step mapping is injective, and IOTA is its own inverse. -/
theorem stepMappingsBijective : Obligations.StepMappingsBijective :=
  ⟨bijective_of_injective theta_injective, bijective_of_injective rho_injective, bijective_of_injective pi_injective,
    bijective_of_injective chiInverse_chi.injective, fun ir => (iota_involutive ir).bijective⟩

/-- Settles O15: KECCAK_F composes injective rounds, and the state it answers holds its value on the lanes. -/
theorem keccakFIsAPermutation : Obligations.KeccakFIsAPermutation := by
  refine ⟨bijective_of_injective keccakF_injective, fun s t u hs ht => keccakF_injective ?_⟩
  have hpermute : s.permute = t.permute := (exec_next _ s u hs).symm.trans (exec_next _ t u ht)
  simpa using congrArg State.lanes hpermute

/-- Settles O12: KECCAK_F folds `round` over the indices, as the execution of the rounds does, and the chain is the
fold's intermediate lanes. -/
theorem keccakFIsTwentyFourRounds : Obligations.KeccakFIsTwentyFourRounds := by
  intro s
  refine ⟨{ s with lanes := keccakF s.lanes, ir := none }, ?exec, rfl, ⟨_, execAll_map_round _ s, ?lanes⟩,
    ⟨afterRounds s.lanes, rfl, afterRounds_all s.lanes, afterRounds_succ s.lanes⟩, rfl⟩
  case exec => exact congrArg Host.Outcome.next (permute_eq s)
  case lanes => exact keccakF_eq s.lanes

/-- Settles O6: C is the column parities and D what THETA XORs onto the column. -/
theorem thetaResult : Obligations.ThetaResult := fun s =>
  ⟨_, rfl, rfl,
    ⟨columnParity s.lanes, fun x => columnParity s.lanes (x + 4) ^^^ rol (columnParity s.lanes (x + 1)) 1,
      fun _ => rfl, fun _ => rfl, lane_theta s.lanes⟩, rfl⟩

/-- Settles O7: lane by lane, with the offset table compared entry by entry. -/
theorem rhoResult : Obligations.RhoResult := fun s =>
  ⟨_, rfl, rfl, fun x y => by rw [lane_rho, RHO_eq_getD], rfl⟩

/-- Settles O8: PI read at each position, and read where it puts each lane. -/
theorem piResult : Obligations.PiResult := fun s =>
  ⟨_, rfl, rfl, lane_pi s.lanes, lane_pi_moved s.lanes, rfl⟩

/-- Settles O9: CHI lane by lane. -/
theorem chiResult : Obligations.ChiResult := fun s =>
  ⟨_, rfl, rfl, lane_chi s.lanes, rfl⟩

/-- Settles O10: IOTA at lane (0,0) and at the other 24. -/
theorem iotaResult : Obligations.IotaResult := fun s ir =>
  ⟨_, rfl, rfl, lane_iota_origin s.lanes ir, lane_iota_other s.lanes ir, rfl⟩

/-- Settles O11: ROUND is by definition the composition that the five executions compute. -/
theorem roundIsTheFiveSteps : Obligations.RoundIsTheFiveSteps := fun _ _ =>
  ⟨_, rfl, rfl, rfl, rfl⟩

/-- Settles O13: PI reads at (y, 2x+3y) the lane (x,y) that RHO rotated. -/
theorem fusedRhoPi : Obligations.FusedRhoPi := fun A x y => by
  rw [lane_pi_moved, lane_rho]

end Sys2Proof.Machine

/-! # Proofs: the sponge (spec/41_sponge.md)

What XOR_STATE_BYTE to SQUEEZE answer. Each micro-operation first gets its two rules: the state it answers where its
precondition holds, and the stop where it fails. The results then follow from the byte and the lane view of the XOR, and
from PAD's block as buffer and padding. -/

namespace Sys2Proof.Machine

/-! ### Where a micro-operation runs, and where it stops (R110 to R113) -/

theorem exec_xorStateByte (s : State) (i : Fin 200) (v : Byte) (h : i.val < s.rateBytes) :
    exec (.xorStateByte i v) s = .next (s.xorByte i.val v) :=
  if_pos h

theorem exec_xorStateByte_outside (s : State) (i : Fin 200) (v : Byte) (h : s.rateBytes ≤ i.val) :
    exec (.xorStateByte i v) s = .fault (.indexOutsideRate i) :=
  if_neg h.not_gt

theorem exec_absorbBlock (s : State) (p : List Byte) (h : p.length = s.rateBytes) :
    exec (.absorbBlock p) s = .next (s.absorb p) :=
  if_pos h

theorem exec_absorbBlock_other (s : State) (p : List Byte) (h : p.length ≠ s.rateBytes) :
    exec (.absorbBlock p) s = .fault (.notOneBlock p.length) :=
  if_neg h

theorem exec_bufAppend (s : State) (v : Byte) (h : s.cnt < s.rateBytes) :
    exec (.bufAppend v) s = .next (s.append v) :=
  if_pos h

theorem exec_bufAppend_full (s : State) (v : Byte) (h : s.rateBytes ≤ s.cnt) :
    exec (.bufAppend v) s = .fault .bufferFull :=
  if_neg h.not_gt

theorem exec_pad (s : State) (h : s.cnt < s.rateBytes) :
    exec .pad s = .next (s.returnBlock (padBlock s.rateBytes s.buf)) :=
  if_pos h

theorem exec_pad_full (s : State) (h : s.rateBytes ≤ s.cnt) : exec .pad s = .fault .bufferFull :=
  if_neg h.not_gt

/-! ### The XOR in the lane view (R110, R116) -/

/-- A block fits into the 200 bytes of the state (R6). -/
theorem block_length_le {p : List Byte} {d : DigestSize} (h : p.length = d.rateBytes) : p.length ≤ 200 := by
  obtain ⟨-, hrate, -⟩ := rateBytes_bounds d
  omega

/-- A byte placed at `k` is the rule's arithmetic zext_64(v) · 2^(8k) (R110). -/
theorem placeByte_eq_ofNat (v : Byte) (k : Nat) : placeByte v k = BitVec.ofNat 64 (v.toNat * 2 ^ (8 * k)) := by
  apply BitVec.eq_of_toNat_eq
  simp [placeByte, Nat.shiftLeft_eq]

/-- XorStateByte writes the one lane that holds byte `i`. -/
theorem lane_xorStateByte (A : Lanes) (i : Fin 200) (v : Byte) (x y : Fin 5) :
    lane (xorStateByte A i.val v) x y =
      if x.val = i.val / 8 % 5 ∧ y.val = i.val / 8 / 5 then lane A x y ^^^ placeByte v (i.val % 8)
      else lane A x y := by
  have hL : i.val / 8 < 25 := by omega
  have hxy : (x.val = i.val / 8 % 5 ∧ y.val = i.val / 8 / 5) ↔ i.val / 8 = x.val + 5 * y.val := by omega
  simp only [lane, laneNumber, xorStateByte, dif_pos hL, Fin.getElem_fin, Vector.getElem_set, hxy]
  split
  · next h => simp only [h]
  · rfl

theorem lane_xorBlockLanes (A : Lanes) (p : List Byte) (x y : Fin 5) :
    lane (xorBlockLanes A p) x y = lane A x y ^^^ laneOfBytes ((p.drop (8 * (x.val + 5 * y.val))).take 8) := by
  rw [xorBlockLanes, lane_ofCoords, laneNumber]

/-- A lane made of bytes is their little-endian sum; bytes that are not there count as zero. -/
theorem laneOfBytes_toNat (l : List Byte) :
    (laneOfBytes l).toNat = ∑ k : Fin 8, 2 ^ (8 * k.val) * (l.getD k.val 0#8).toNat := by
  rw [lane_eq_sum_laneByte]
  refine Finset.sum_congr rfl fun k _ => ?_
  rw [laneByte_laneOfBytes l k.val k.isLt, List.getD_eq_getElem?_getD]
  cases l[k.val]? <;> rfl

/-- Byte `k` of the eight block bytes of lane `L`. -/
theorem getD_take_drop (p : List Byte) (L : Nat) (k : Fin 8) :
    ((p.drop (8 * L)).take 8).getD k.val 0#8 = p.getD (8 * L + k.val) 0#8 := by
  simp [List.getD_eq_getElem?_getD, k.isLt]

/-! ### PAD's block as a bit string (R23, R113) -/

theorem bitString_append (a b : List Byte) : bitString (a ++ b) = bitString a ++ bitString b :=
  List.flatMap_append

theorem bitString_cons (b : Byte) (bs : List Byte) : bitString (b :: bs) = bitString [b] ++ bitString bs :=
  bitString_append [b] bs

theorem bitString_zeros (n : Nat) : bitString (List.replicate n 0x00#8) = List.replicate (8 * n) false := by
  induction n with
  | zero => rfl
  | succ n ih =>
    have hzero : bitString [0x00#8] = List.replicate 8 false := by decide
    rw [List.replicate_succ, bitString_cons, ih, hzero, List.replicate_append_replicate, Nat.mul_succ, Nat.add_comm]

/-- With CNT = R−1 the one byte left carries the suffix and the final bit. -/
theorem padding_last (r q : Nat) (h : q + 1 = r) : padding r q = [0x86#8] :=
  if_pos (by omega)

theorem padding_more (r q : Nat) (h : q + 2 ≤ r) :
    padding r q = 0x06#8 :: (List.replicate (r - q - 2) 0x00#8 ++ [0x80#8]) :=
  if_neg (by omega)

/-- In both cases the padding is the suffix 01 and then the pad10*1 bits: 1, zeros, 1. -/
theorem bitString_padding (r q : Nat) (h : q < r) :
    bitString (padding r q) = [false, true] ++ [true] ++ List.replicate (8 * (r - q) - 4) false ++ [true] := by
  by_cases hlast : q + 1 = r
  · have hone : r - q = 1 := by omega
    rw [padding_last r q hlast, hone]
    decide
  · have hfirst : bitString [0x06#8] = [false, true] ++ [true] ++ List.replicate 5 false := by decide
    have hend : bitString [0x80#8] = List.replicate 7 false ++ [true] := by decide
    have hzeros : 8 * (r - q) - 4 = 5 + (8 * (r - q - 2) + 7) := by omega
    rw [padding_more r q (by omega), bitString_cons, bitString_append, bitString_zeros, hfirst, hend, hzeros,
      List.replicate_add, List.replicate_add]
    simp only [List.append_assoc]

/-! ### BUF_APPEND's two cases (R112) -/

theorem append_of_lt (s : State) (v : Byte) (h : s.cnt + 1 < s.rateBytes) :
    s.append v = { s with buf := s.buf ++ [v] } :=
  if_neg h.ne

theorem append_of_full (s : State) (v : Byte) (h : s.cnt + 1 = s.rateBytes) :
    s.append v = { s.absorb (s.buf ++ [v]) with buf := [] } :=
  if_pos h

/-! ### The obligations of 41_sponge.md -/

/-- Settles O16: the byte view and the lane view of the one byte-wide write. -/
theorem xorStateByteResult : Obligations.XorStateByteResult := by
  intro s i v hi
  refine ⟨_, exec_xorStateByte s i v hi, rfl, fun j => stateByte_xorStateByte s.lanes i j v, fun x y => ?lane, rfl⟩
  case lane => rw [← placeByte_eq_ofNat, xorByte_lanes, lane_xorStateByte]

/-- Settles O18: between the XOR and KECCAK_F stand the lanes of `xorBlock`, read byte by byte. -/
theorem absorbBlockResult : Obligations.AbsorbBlockResult := by
  intro s p hp
  have hbytes : p.length ≤ 200 := block_length_le hp
  refine ⟨_, xorBlock s.lanes p, exec_absorbBlock s p hp, absorb_eq s p, fun i b hb => ?rate, fun i hi => ?capacity,
    rfl⟩
  case rate => rw [stateByte_xorBlock p s.lanes hbytes, hb]
  case capacity => rw [stateByte_xorBlock p s.lanes hbytes, List.getElem?_eq_none (hp.trans_le hi)]

/-- Settles O19: the two forms have the same bytes; the lane-wise form gives each lane, and past the block there are no
bytes to XOR. -/
theorem absorbLaneWise : Obligations.AbsorbLaneWise := by
  have hforms (A : Lanes) (p : List Byte) (d : DigestSize) (hp : p.length = d.rateBytes) :
      xorBlock A p = xorBlockLanes A p :=
    xorBlock_eq_lanes A p (block_length_le hp)
  refine ⟨hforms, fun A d p x y hp => ?_⟩
  rw [hforms A p d hp, lane_xorBlockLanes]
  refine ⟨fun hL => ?untouched, fun _ => ⟨_, rfl, ?sum⟩⟩
  case untouched =>
    obtain ⟨-, -, hwhole⟩ := rateBytes_bounds d
    rw [List.drop_eq_nil_of_le (by omega), List.take_nil, laneOfBytes, BitVec.xor_zero]
  case sum => simp only [laneOfBytes_toNat, getD_take_drop]

/-- Settles O21: the block is the buffer and the padding of its case, whose bits are appended to the message's. -/
theorem padResult : Obligations.PadResult := by
  intro s hs
  have hblock : padBlock s.rateBytes s.buf = s.buf ++ padding s.rateBytes s.cnt := padBlock_eq _ _ hs
  refine ⟨_, exec_pad s hs, padBlock_length _ _, fun h => ?more, fun h => ?last, ?bits, rfl⟩
  case more =>
    rw [hblock, padding_more _ _ h]
    simp only [List.append_assoc, List.cons_append, List.nil_append]
  case last => rw [hblock, padding_last _ _ h]
  case bits =>
    rw [hblock, bitString_append, bitString_padding _ _ hs]
    simp only [List.append_assoc]

/-- Settles O20: the two cases of BUF_APPEND, a full buffer being a block of R bytes. -/
theorem bufAppendResult : Obligations.BufAppendResult := by
  intro s v hs
  refine ⟨⟨_, exec_bufAppend s v hs, append_of_lt s v, fun hfull => ?full⟩, rfl⟩
  case full =>
    have hblock : (s.buf ++ [v]).length = s.rateBytes := List.length_append.trans hfull
    exact ⟨_, exec_absorbBlock s _ hblock, append_of_full s v hfull⟩

/-- Settles O22: the digest register holds the first DB bytes of the flattened state. -/
theorem squeezeResult : Obligations.SqueezeResult := fun s =>
  ⟨s.squeeze, rfl, rfl, squeezeBytes_length s.dsz s.lanes, fun i hi => squeezeBytes_getElem? s.dsz s.lanes i hi, rfl⟩

/-- Settles O23: each of the four rules' preconditions fails. -/
theorem microOperationsStopOutsideTheirRules : Obligations.MicroOperationsStopOutsideTheirRules :=
  ⟨exec_xorStateByte_outside, exec_absorbBlock_other, exec_bufAppend_full, exec_pad_full⟩

end Sys2Proof.Machine

/-! # Proofs: the engine (spec/42_engine.md)

What CREATE to HASH answer. An accepted command answers the state of its shared operation and one response, and a response
commutes with absorbing and finalizing: a run of UPDATEs is one absorption of the bytes together and as many responses
(`execAll_updates`). That is chunking invariance, and with R38's sponge invariant it gives SHA-3, for HASH and for a
stream run step by step. -/

namespace Sys2Proof.Machine

/-! ### One instruction after another -/

theorem execAll_cons {i : Instr} {s t : State} (is : List Instr) (h : exec i s = .next t) :
    execAll (i :: is) s = execAll is t := by
  rw [execAll, h]

theorem exec_create_legal {d : Int} {p : DigestSize} (s : State) (h : parameterSet d = some p) :
    exec (.create d) s = .next ((s.initialise p).respond .ok) :=
  execCreate_legal d p s h

theorem exec_update_absorbing (data : List Byte) {s : State} (h : s.phase = .absorbing) :
    exec (.update data) s = .next ((s.absorbBytes data).respond .ok) :=
  execUpdate_absorbing data s h

theorem exec_finalize_absorbing {s : State} (h : s.phase = .absorbing) :
    exec .finalize s = .next (s.finish.respond (.digest s.finish.dig)) :=
  execFinalize_absorbing s h

/-! ### CREATE and RESET (R121, R124) -/

/-- Settles O24: the two cases of `parameterSet`. -/
theorem createResult : Obligations.CreateResult := by
  refine ⟨fun s d p hd => ?legal, fun s d hd => execCreate_illegal d s ((parameterSet_eq_none d).mpr hd),
    fun d => ⟨_, rfl, rfl⟩⟩
  case legal => exact ⟨_, execCreate_legal d p s ((parameterSet_eq_some d p).mpr hd), rfl, lane_zeroLanes⟩

/-- Settles O28: RESET and CREATE DSZ run the same initialisation. -/
theorem resetResult : Obligations.ResetResult := by
  refine ⟨fun s hs => ?created, execReset_uncreated, rfl⟩
  case created =>
    have hsize : parameterSet (s.dsz.bits : Int) = some s.dsz := (parameterSet_eq_some _ _).mpr rfl
    exact ⟨_, execReset_created s hs, rfl, lane_zeroLanes, execCreate_legal _ _ s hsize⟩

/-! ### UPDATE (R122) -/

/-- UPDATE's loop is the execution of BUF_APPEND byte after byte; no byte meets a full buffer. -/
theorem execAll_map_bufAppend (data : List Byte) (s : State) (h : s.cnt < s.rateBytes) :
    execAll (data.map Instr.bufAppend) s = .next (s.absorbBytes data) := by
  induction data generalizing s with
  | nil => rfl
  | cons v vs ih =>
    rw [List.map_cons, execAll_cons _ (exec_bufAppend s v h)]
    exact ih (s.append v) (by rw [append_rateBytes]; exact append_cnt_lt s v h)

/-- Settles O25: UPDATE's loop is BUF_APPEND byte after byte, which writes the lanes, the buffer and the round index. -/
theorem updateResult : Obligations.UpdateResult := by
  refine ⟨fun s data hphase hcnt => ?absorbing, fun s data hs => execUpdate_other data s hs,
    fun data => ⟨_, rfl, rfl⟩⟩
  case absorbing =>
    refine ⟨_, _, execUpdate_absorbing data s hphase, execAll_map_bufAppend data s hcnt, ?_, absorbBytes_ir s data⟩
    simp [State.respond]

/-- The closed form from the buffer on: an engine with CNT ≤ R−1 holds the message BUF from its own lanes on. -/
theorem absorbBytes_eq (s : State) (data : List Byte) (h : s.cnt < s.rateBytes) :
    s.absorbBytes data =
      { s with lanes := absorbBlocksByByte s.lanes (wholeBlocks s.rateBytes (s.buf ++ data)),
               buf := lastBytes s.rateBytes (s.buf ++ data), ir := (s.absorbBytes data).ir } :=
  absorbBytes_from data s s.lanes s.buf (by rw [wholeBlocks_of_lt _ _ h, absorbBlocksByByte_nil])
    (lastBytes_of_lt _ _ h).symm

/-- Settles O26: the closed form of UPDATE's loop, and the numbers of its blocks and of the bytes left. -/
theorem updateClosedForm : Obligations.UpdateClosedForm := by
  intro s data hphase hcnt
  have key := absorbBytes_eq s data hcnt
  have hlen : (s.buf ++ data).length = s.cnt + data.length := List.length_append
  refine ⟨_, execUpdate_absorbing data s hphase, ?lanes, ?blocks, ?buf, ?cnt⟩
  case lanes => exact congrArg State.lanes key
  case blocks => rw [wholeBlocks_length, hlen]
  case buf => exact congrArg State.buf key
  case cnt => rw [respond_cnt, key, State.cnt, lastBytes_length, hlen]

/-! ### FINALIZE and HEXENC (R123, R125, R129) -/

/-- Settles O27: FINALIZE absorbs the block that PAD returns and reads the digest out of the lanes that leaves. -/
theorem finalizeResult : Obligations.FinalizeResult := by
  refine ⟨fun s hphase hcnt => ?absorbing, execFinalize_other, rfl⟩
  case absorbing =>
    have hblock : (padBlock s.rateBytes s.buf).length = s.rateBytes := padBlock_length _ _
    refine ⟨_, _, _, execFinalize_absorbing s hphase, exec_pad s hcnt, exec_absorbBlock s _ hblock, ?_⟩
    rw [finish_eq, absorb_eq]
    exact ⟨rfl, squeezeBytes_length _ _, squeezeBytes_getElem? _ _⟩

/-- Settles O36: SQUEEZE's result has DB bytes, whatever the lanes hold. -/
theorem digestLengthContract : Obligations.DigestLengthContract := by
  intro s hs
  refine ⟨_, squeezeBytes s.dsz (finalLanes s), execFinalize_absorbing s hs, by rw [finish_eq]; rfl, ?_⟩
  rw [squeezeBytes_length]
  cases s.dsz <;> decide

/-- H, the sixteen characters of R125. -/
def hexCharacters : List Byte :=
  [0x30#8, 0x31#8, 0x32#8, 0x33#8, 0x34#8, 0x35#8, 0x36#8, 0x37#8, 0x38#8, 0x39#8, 0x41#8, 0x42#8, 0x43#8, 0x44#8,
    0x45#8, 0x46#8]

theorem hexCharacters_getElem? {n : Nat} (h : n < 16) : hexCharacters[n]? = some (hexChar n) := by
  interval_cases n <;> rfl

/-- Byte `i` of a sequence is written at the characters 2i and 2i+1 of its text. -/
theorem hexText_getElem? {bytes : List Byte} {i : Nat} {b : Byte} (h : bytes[i]? = some b) :
    (hexText bytes)[2 * i]? = some (hexChar (b.toNat / 16)) ∧
      (hexText bytes)[2 * i + 1]? = some (hexChar (b.toNat % 16)) := by
  induction bytes generalizing i with
  | nil => cases h
  | cons c cs ih =>
    cases i with
    | zero => cases h; exact ⟨rfl, rfl⟩
    | succ i => exact ih h

/-- Settles O29: the two characters of each byte, looked up in the rule's table. -/
theorem hexencResult : Obligations.HexencResult := by
  refine ⟨fun s hs => ?finalized, execHexenc_other, rfl⟩
  case finalized =>
    refine ⟨_, execHexenc_finalized s hs, hexText_length _, fun hdig => ?size, fun i b hb => ?characters⟩
    case size => rw [hexText_length, hdig]; rfl
    case characters =>
      obtain ⟨hhigh, hlow⟩ := hexText_getElem? hb
      exact ⟨_, _, hhigh, hlow, hexCharacters_getElem? (by omega), hexCharacters_getElem? (by omega)⟩

/-! ### The lifecycle table (R120) -/

/-- Settles O31: each cell is the rule of its command in the column's phase. -/
theorem lifecycleTable : Obligations.LifecycleTable := by
  refine ⟨fun s d p hp => ?create, fun s d hd => execCreate_illegal d s hd, fun s hs c hc => ?uncreated,
    fun s hs => ?absorbing, fun s hs => ?finalized⟩
  case create => exact ⟨_, execCreate_legal d p s hp, rfl, rfl, rfl, rfl, rfl⟩
  case uncreated =>
    simp only [List.mem_cons, List.not_mem_nil, or_false] at hc
    rcases hc with (rfl | rfl | rfl) | ⟨data, rfl⟩
    · exact execFinalize_other s (by simp [hs])
    · exact execReset_uncreated s hs
    · exact execHexenc_other s (by simp [hs])
    · exact execUpdate_other data s (by simp [hs])
  case absorbing =>
    exact ⟨fun data => ⟨_, execUpdate_absorbing data s hs, by simpa using hs, by simp⟩,
      ⟨_, _, execFinalize_absorbing s hs, by rw [finish_eq]; rfl, by rw [finish_eq]; rfl⟩,
      ⟨_, execReset_created s (by simp [hs]), rfl, rfl, rfl, rfl, rfl⟩, execHexenc_other s (by simp [hs])⟩
  case finalized =>
    exact ⟨fun data => execUpdate_other data s (by simp [hs]), execFinalize_other s (by simp [hs]),
      ⟨_, execReset_created s (by simp [hs]), rfl, rfl, rfl, rfl, rfl⟩, _, execHexenc_finalized s hs⟩

/-! ### Several responses, and a run of UPDATEs (R127) -/

/-- Responses delivered one after another. -/
def State.respondAll (s : State) (rs : List Response) : State :=
  { s with responses := s.responses ++ rs }

@[simp] theorem respondAll_responses (s : State) (rs : List Response) :
    (s.respondAll rs).responses = s.responses ++ rs := rfl

@[simp] theorem respondAll_phase (s : State) (rs : List Response) : (s.respondAll rs).phase = s.phase := rfl

@[simp] theorem respondAll_dig (s : State) (rs : List Response) : (s.respondAll rs).dig = s.dig := rfl

theorem respondAll_nil (s : State) : s.respondAll [] = s := by
  simp [State.respondAll]

theorem respond_respondAll (s : State) (r : Response) (rs : List Response) :
    (s.respond r).respondAll rs = s.respondAll (r :: rs) := by
  simp [State.respondAll, State.respond]

theorem respondAll_respond (s : State) (rs : List Response) (r : Response) :
    (s.respondAll rs).respond r = s.respondAll (rs ++ [r]) := by
  simp [State.respondAll, State.respond]

theorem respondAll_finish (s : State) (rs : List Response) : (s.respondAll rs).finish = s.finish.respondAll rs := by
  rw [finish_eq, finish_eq]
  rfl

/-- Responses are no part of the architectural state (R29). -/
theorem sameInstance_respondAll (s : State) (rs rs' : List Response) :
    SameInstance (s.respondAll rs) (s.respondAll rs') :=
  ⟨rfl, rfl, rfl, rfl, rfl, rfl⟩

/-- UPDATEs one after another: the bytes are absorbed as one sequence, and each UPDATE answers OK. -/
theorem execAll_updates (chunks : List (List Byte)) (is : List Instr) (s : State) (h : s.phase = .absorbing) :
    execAll (chunks.map Instr.update ++ is) s =
      execAll is ((s.absorbBytes chunks.flatten).respondAll (List.replicate chunks.length .ok)) := by
  induction chunks generalizing s with
  | nil => exact congrArg (execAll is) (respondAll_nil s).symm
  | cons c cs ih =>
    rw [List.map_cons, List.cons_append, execAll_cons _ (exec_update_absorbing c h), ih _ (by simpa using h),
      respond_absorbBytes, ← absorbBytes_append, respond_respondAll]
    rfl

/-- The responses to a message sent in `n` UPDATEs and finalized. -/
def messageResponses (n : Nat) (digest : List Byte) : List Response :=
  List.replicate n .ok ++ [.digest digest]

theorem execAll_updates_finalize (chunks : List (List Byte)) (s : State) (h : s.phase = .absorbing) :
    execAll (chunks.map Instr.update ++ [.finalize]) s =
      .next ((s.absorbBytes chunks.flatten).finish.respondAll
        (messageResponses chunks.length (s.absorbBytes chunks.flatten).finish.dig)) := by
  rw [execAll_updates chunks _ s h, execAll_cons _ (exec_finalize_absorbing (by simpa using h)), respondAll_finish,
    respondAll_dig, respondAll_respond]
  rfl

theorem SameInstance.symm {s t : State} (h : SameInstance s t) : SameInstance t s :=
  ⟨h.lanes.symm, h.buf.symm, h.dsz.symm, h.phase.symm, h.dig.symm, h.ir.symm⟩

/-- Settles O35: the state after UPDATEs depends on their bytes together, and the responses are no part of the instance. -/
theorem chunkingInvariance : Obligations.ChunkingInvariance := by
  refine ⟨fun s a b hs => ?two, fun s hs => ?empty, fun s cs ds hs hflatten => ?finalized⟩
  case two =>
    refine ⟨_, _, _, execUpdate_absorbing a s hs, execUpdate_absorbing b _ (by simpa using hs),
      execUpdate_absorbing (a ++ b) s hs, ?_⟩
    rw [respond_absorbBytes, ← absorbBytes_append]
    exact (sameInstance_respond _ .ok).symm
  case empty => exact ⟨_, execUpdate_absorbing [] s hs, sameInstance_respond s .ok⟩
  case finalized =>
    refine ⟨_, _, execAll_updates_finalize cs s hs, execAll_updates_finalize ds s hs, ?_⟩
    rw [hflatten]
    exact ⟨rfl, sameInstance_respondAll _ _ _⟩

/-! ### HASH (R126) -/

theorem hashed_dig (s : State) (p : DigestSize) (m : List Byte) : (hashed s p m).dig = sha3 p m := by
  rw [hashed_spec]

/-- CREATE, UPDATEs and FINALIZE one after another leave the instance as HASH leaves it (R126). -/
theorem execAll_create_updates_finalize (s : State) (d : Int) (p : DigestSize) (chunks : List (List Byte))
    (h : parameterSet d = some p) :
    execAll (.create d :: (chunks.map Instr.update ++ [.finalize])) s =
      .next ((hashed s p chunks.flatten).respondAll (.ok :: messageResponses chunks.length (sha3 p chunks.flatten))) := by
  rw [execAll_cons _ (exec_create_legal s h), execAll_updates_finalize chunks _ rfl, respond_absorbBytes,
    respond_finish, respond_respondAll, respond_dig, ← hashed, hashed_dig]

/-- Settles O30: HASH's state in closed form, and the three commands' state with their three responses. -/
theorem hashComputesSha3 : Obligations.HashComputesSha3 := by
  refine ⟨fun s d p m hd => ?legal, fun s d m hd => execHash_illegal d m s ((parameterSet_eq_none d).mpr hd)⟩
  case legal =>
    have hp : parameterSet d = some p := (parameterSet_eq_some d p).mpr hd
    have hcommands := execAll_create_updates_finalize s d p [m] hp
    rw [List.flatten_singleton] at hcommands
    refine ⟨_, _, .ok, .ok, .digest (sha3 p m), execHash_legal d p m s hp, ?response, hashed_dig s p m, ?phase, ?size,
      ?buf, hcommands, sameInstance_respondAll _ [_] _, ?responses, rfl⟩
    all_goals simp [hashed_spec, messageResponses]

/-! ### A stream run step by step (R70) -/

/-- The state in which the stream's first command has been consumed and these commands are left. -/
def State.awaiting (s : State) (commands : List Instr) : State :=
  { s with stream := (commands.map fun i => (encode i).hostBytes).flatten }

/-- The machine's step on a stream of commands: the first is executed, and the others are left (R70). -/
theorem Presents.step_of_exec {s t : State} {i : Instr} {commands : List Instr} (h : Presents s (i :: commands))
    (hi : Sendable i) (ht : exec i (s.awaiting commands) = .next t) : step s = .next t ∧ Presents t commands := by
  obtain ⟨hselect, hstream⟩ := h
  refine ⟨?step, ?select, ?stream⟩
  case step => exact (step_of_ok s i _ hselect (hstream ▸ hi.decodeCommand _)).trans ht
  case select => rw [exec_next _ _ _ ht, effect_select]; exact hselect
  case stream => rw [exec_next _ _ _ ht, effect_stream]; rfl

theorem HasAbsorbed.awaiting {p : DigestSize} {m : List Byte} {s : State} (h : HasAbsorbed p m s)
    (commands : List Instr) : HasAbsorbed p m (s.awaiting commands) :=
  ⟨h.phase_absorbing, h.size, h.lanes_eq, h.buf_eq⟩

theorem core_run_succ {s t : State} (k : Nat) (h : step s = .next t) :
    Host.Core.run Sys2Proof.core (k + 1) s = Host.Core.run Sys2Proof.core k t :=
  run_succ Sys2Proof.core k s t h

/-- The machine runs UPDATEs of the stream one step each; the message absorbed grows by their bytes. -/
theorem run_updates {p : DigestSize} (chunks : List (List Byte)) (commands : List Instr) (k : Nat) (s : State)
    (m : List Byte) (hm : HasAbsorbed p m s) (hlen : ∀ c ∈ chunks, c.length ≤ Config.lenMax)
    (hs : Presents s (chunks.map Instr.update ++ commands)) :
    ∃ t : State, Host.Core.run Sys2Proof.core (chunks.length + k) s = Host.Core.run Sys2Proof.core k t ∧
      HasAbsorbed p (m ++ chunks.flatten) t ∧ Presents t commands ∧
      t.responses = s.responses ++ List.replicate chunks.length .ok := by
  induction chunks generalizing s m with
  | nil => exact ⟨s, by simp, by simpa using hm, hs, by simp⟩
  | cons c cs ih =>
    rw [List.map_cons, List.cons_append] at hs
    have hc : Sendable (.update c) := ⟨decide_eq_true (hlen c List.mem_cons_self), rfl, by simp⟩
    have hawait := hm.awaiting (cs.map Instr.update ++ commands)
    obtain ⟨hstep, hrest⟩ := hs.step_of_exec hc (exec_update_absorbing c hawait.phase_absorbing)
    obtain ⟨t, hrun, ht, hleft, hresponses⟩ := ih _ (m ++ c) ((hawait.absorbBytes c).respond .ok)
      (fun x hx => hlen x (List.mem_cons_of_mem c hx)) hrest
    refine ⟨t, ?_, by simpa using ht, hleft, ?_⟩
    · rw [List.length_cons, Nat.add_right_comm, core_run_succ _ hstep, hrun]
    · simp [hresponses, State.awaiting, List.replicate_succ]

theorem fitsImm32_bits (p : DigestSize) : fitsImm32 (p.bits : Int) = true := by
  cases p <;> rfl

/-- Settles O47: CREATE starts the empty message, the UPDATEs make it the chunks together, and FINALIZE answers its
digest. -/
theorem engineComputesSha3 : Obligations.EngineComputesSha3 := by
  intro s d p chunks hd hlen hs
  have hcreate : Sendable (.create d) := ⟨hd ▸ fitsImm32_bits p, rfl, by simp⟩
  have hp : parameterSet d = some p := (parameterSet_eq_some d p).mpr hd
  obtain ⟨hfirst, hrest⟩ := hs.step_of_exec hcreate (exec_create_legal _ hp)
  obtain ⟨t, hrun, ht, hlast, hresponses⟩ := run_updates chunks [.finalize] 1 _ []
    ((hasAbsorbed_initialise p _).respond .ok) hlen hrest
  obtain ⟨hfinal, -, hstream⟩ := hlast.step_of_exec ⟨rfl, rfl, by simp⟩
    (exec_finalize_absorbing (ht.awaiting []).phase_absorbing)
  have hdig : (t.awaiting []).finish.dig = sha3 p chunks.flatten := (ht.awaiting []).finish_dig
  refine ⟨_, ((core_run_succ _ hfirst).trans hrun).trans (core_run_succ 0 hfinal), ?responses, ?phase, hdig, hstream⟩
  case responses =>
    rw [hdig, finish_eq]
    simp [State.awaiting, hresponses, List.replicate_succ]
  case phase => rw [respond_phase, finish_eq]

end Sys2Proof.Machine

/-! # Proofs: exceptions (spec/60_exceptions.md)

The causes of an error are listed once (`Raises`): every error answered has one of them (`raises_of_answers`), each answers
its error and nothing else (`Raises.exec_eq`), and as it rests on the operands and PHASE alone, it stands when the error is
answered. That gives which command raises what, and that an error leaves no trace. -/

namespace Sys2Proof.Machine

/-! ### The causes of an error (R141, R142, R144) -/

/-- `Raises s i e`: the command `i` raises `e` in the state `s`, one constructor per cell of R144's table. -/
inductive Raises (s : State) : Instr → Error → Prop
  | create (d : Int) (illegal : parameterSet d = none) : Raises s (.create d) .invalidParameter
  | hash (d : Int) (m : List Byte) (illegal : parameterSet d = none) : Raises s (.hash d m) .invalidParameter
  | update (data : List Byte) (phase : s.phase ≠ .absorbing) : Raises s (.update data) .invalidState
  | finalize (phase : s.phase ≠ .absorbing) : Raises s .finalize .invalidState
  | reset (phase : s.phase = .uncreated) : Raises s .reset .invalidState
  | hexenc (phase : s.phase ≠ .finalized) : Raises s .hexenc .invalidState

theorem Raises.exec_eq {s : State} {i : Instr} {e : Error} (h : Raises s i e) : exec i s = .next (s.raise e) := by
  cases h with
  | create d illegal => exact execCreate_illegal d s illegal
  | hash d m illegal => exact execHash_illegal d m s illegal
  | update data phase => exact execUpdate_other data s phase
  | finalize phase => exact execFinalize_other s phase
  | reset phase => exact execReset_uncreated s phase
  | hexenc phase => exact execHexenc_other s phase

/-- Of the state only PHASE decides whether a command raises an error. -/
theorem Raises.of_phase_eq {s t : State} {i : Instr} {e : Error} (h : Raises s i e) (ht : t.phase = s.phase) :
    Raises t i e := by
  cases h with
  | create d illegal => exact .create d illegal
  | hash d m illegal => exact .hash d m illegal
  | update data phase => exact .update data (ht ▸ phase)
  | finalize phase => exact .finalize (ht ▸ phase)
  | reset phase => exact .reset (ht ▸ phase)
  | hexenc phase => exact .hexenc (ht ▸ phase)

theorem Answers.unique {i : Instr} {s : State} {r r' : Response} (h : Answers i s r) (h' : Answers i s r') :
    r = r' := by
  obtain ⟨t, ht, hr⟩ := h
  obtain ⟨t', ht', hr'⟩ := h'
  cases ht.symm.trans ht'
  simpa using hr.symm.trans hr'

/-- A command answers no other error than the one it has a cause for (R146). -/
theorem Raises.of_answers {s : State} {i : Instr} {e e' : Error} (hcause : Raises s i e')
    (h : Answers i s (.error e)) : Raises s i e := by
  cases h.unique (answers_of_raise hcause.exec_eq)
  exact hcause

/-- A micro-operation answers nothing (R144). -/
theorem not_answers_of_microOperation {i : Instr} {s : State} {r : Response} (hi : isHostCommand i = false) :
    ¬ Answers i s r := by
  rintro ⟨t, ht, hr⟩
  rw [exec_next i s t ht, microOperation_responses i s hi] at hr
  simp at hr

/-- An error answered has a cause: a command whose check succeeds answers its own response, which is no error. -/
theorem raises_of_answers {i : Instr} {s : State} {e : Error} (h : Answers i s (.error e)) : Raises s i e := by
  cases i with
  | create d =>
    cases hp : parameterSet d with
    | none => exact (Raises.create d hp).of_answers h
    | some p => cases h.unique (answers_of_respond (execCreate_legal d p s hp) rfl)
  | hash d m =>
    cases hp : parameterSet d with
    | none => exact (Raises.hash d m hp).of_answers h
    | some p => cases h.unique (answers_of_respond (execHash_legal d p m s hp) (by rw [hashed_spec]))
  | update data =>
    by_cases hp : s.phase = .absorbing
    · cases h.unique (answers_of_respond (execUpdate_absorbing data s hp) (absorbBytes_responses s data))
    · exact (Raises.update data hp).of_answers h
  | finalize =>
    by_cases hp : s.phase = .absorbing
    · cases h.unique (answers_of_respond (execFinalize_absorbing s hp) (by rw [finish_eq]))
    · exact (Raises.finalize hp).of_answers h
  | reset =>
    by_cases hp : s.phase = .uncreated
    · exact (Raises.reset hp).of_answers h
    · cases h.unique (answers_of_respond (execReset_created s hp) rfl)
  | hexenc =>
    by_cases hp : s.phase = .finalized
    · cases h.unique (answers_of_respond (execHexenc_finalized s hp) rfl)
    · exact (Raises.hexenc hp).of_answers h
  | _ => exact absurd h (not_answers_of_microOperation rfl)

/-! ### Several instances (R152) -/

theorem stepInstance_of_step {n : Nat} {k : Fin n} {m : Instances n} {s : State} (h : step m.engines[k] = .next s) :
    stepInstance k m = .next ⟨m.engines.set k s⟩ := by
  simp only [stepInstance, h]

/-- The inversion lemma of a step of several instances: the one instance steps, and only its own state is replaced. -/
theorem stepInstance_next {n : Nat} {k : Fin n} {m a : Instances n} (h : stepInstance k m = .next a) :
    ∃ s, step m.engines[k] = .next s ∧ a = ⟨m.engines.set k s⟩ := by
  cases hstep : step m.engines[k] with
  | next s =>
    rw [stepInstance_of_step hstep] at h
    cases h
    exact ⟨s, rfl, rfl⟩
  | fault f => simp only [stepInstance, hstep] at h; cases h
  | refused r => simp only [stepInstance, hstep] at h; cases h

/-! ### The obligations of 60_exceptions.md -/

/-- Settles O56: the stream's first command is decoded and its rest left, and a host command, which stops in no state,
answers one response. -/
theorem wellFormedStreamsNeverStop : Obligations.WellFormedStreamsNeverStop := by
  intro s c commands hs hsend
  have hc : Sendable c := hsend c List.mem_cons_self
  have ⟨_, hhost, _⟩ := hc
  obtain ⟨t, r, hexec, hresponses, -⟩ := hostCommand_cases c (s.awaiting commands) hhost
  obtain ⟨hstep, hrest⟩ := hs.step_of_exec hc hexec
  exact ⟨t.respond r, r, hstep, hrest, by rw [respond_responses, hresponses]; rfl⟩

/-- Settles O33: the error's cause answers it with nothing else changed, and stands in the state answered. -/
theorem errorsArePrecise : Obligations.ErrorsArePrecise := by
  intro i s t e ht hresponses
  have hcause : Raises s i e := raises_of_answers ⟨t, ht, hresponses⟩
  obtain rfl : s.raise e = t := by simpa [hcause.exec_eq] using ht
  exact ⟨rfl, (hcause.of_phase_eq (raise_phase s e)).exec_eq⟩

/-- Settles O34: the causes of each error. -/
theorem errorsOnlyWhereListed : Obligations.ErrorsOnlyWhereListed := by
  refine fun i s t ht => ⟨fun hresponses => ?parameter, fun hresponses => ?state⟩
  case parameter =>
    cases raises_of_answers ⟨t, ht, hresponses⟩ with
    | create d illegal => exact ⟨d, (parameterSet_eq_none d).mp illegal, .inl rfl⟩
    | hash d m illegal => exact ⟨d, (parameterSet_eq_none d).mp illegal, .inr ⟨m, rfl⟩⟩
  case state =>
    cases raises_of_answers ⟨t, ht, hresponses⟩ with
    | update data phase => exact .inl ⟨⟨data, rfl⟩, phase⟩
    | finalize phase => exact .inr (.inl ⟨rfl, phase⟩)
    | reset phase => exact .inr (.inr (.inl ⟨rfl, phase⟩))
    | hexenc phase => exact .inr (.inr (.inr ⟨rfl, phase⟩))

/-- Settles O42: each step replaces its own instance and leaves the other to step as before; two replacements at different
places commute. -/
theorem instancesDoNotInterfere : Obligations.InstancesDoNotInterfere := by
  intro n j k m a b hjk ha hb
  obtain ⟨s, hs, rfl⟩ := stepInstance_next ha
  obtain ⟨t, ht, rfl⟩ := stepInstance_next hb
  have hne : j.val ≠ k.val := Fin.val_ne_of_ne hjk
  have hk : (m.engines.set j s)[k] = m.engines[k] := Vector.getElem_set_ne j.isLt k.isLt hne
  have hj : (m.engines.set k t)[j] = m.engines[j] := Vector.getElem_set_ne k.isLt j.isLt hne.symm
  refine ⟨?step, hk, ⟨(m.engines.set j s).set k t⟩, ?jThenK, ?kThenJ⟩
  case step => rw [hs, Fin.getElem_fin, Vector.getElem_set_self]
  case jThenK => exact stepInstance_of_step ((congrArg step hk).trans ht)
  case kThenJ =>
    rw [Vector.set_comm _ _ hne]
    exact stepInstance_of_step ((congrArg step hj).trans hs)

end Sys2Proof.Machine

/-! # Proofs: reset and hazards (spec/70_reset_and_hazards.md)

RESET initialises at the size that DSZ holds, and what `initialise` leaves of the instance's past is the round index alone.
What remains is that a run from a created instance ends in one, with no round index live. -/

namespace Sys2Proof.Machine

/-- What every effect keeps, every run keeps. -/
theorem execAll_preserves {P : State → Prop} (keep : ∀ i s, P s → P (effect i s)) {is : List Instr} {s t : State}
    (hs : P s) (h : execAll is s = .next t) : P t := by
  induction is generalizing s with
  | nil =>
    cases h
    exact hs
  | cons i is ih =>
    cases hexec : exec i s with
    | next s' =>
      rw [execAll_cons is hexec] at h
      exact ih (exec_next i s s' hexec ▸ keep i s hs) h
    | fault f => simp only [execAll, hexec] at h; cases h
    | refused r => simp only [execAll, hexec] at h; cases h

/-- `initialise` at one size makes two instances the same but for the round index, which it leaves (R161). -/
theorem sameInstance_initialise_respond {s t : State} (h : s.ir = t.ir) (p : DigestSize) (r r' : Response) :
    SameInstance ((s.initialise p).respond r) ((t.initialise p).respond r') :=
  ⟨rfl, rfl, rfl, rfl, rfl, h⟩

/-- Settles O39: the commands between leave the instance created and no round index live, so RESET is accepted and
initialises as CREATE did. -/
theorem resetReturnsToCreated : Obligations.ResetReturnsToCreated := by
  intro s t u d p between hs hd ht hu hp
  obtain rfl := Host.Outcome.next.inj ((exec_create_legal s ((parameterSet_eq_some d p).mpr hd)).symm.trans ht)
  have hcreated : u.phase ≠ .uncreated :=
    execAll_preserves (P := fun r => r.phase ≠ .uncreated) effect_created (by simp) hu
  have hir : u.ir = none := execAll_preserves (P := fun r => r.ir = none) effect_ir (by simpa using hs) hu
  subst hp
  exact ⟨_, execReset_created u hcreated, sameInstance_initialise_respond (hir.trans hs.symm) u.dsz .ok .ok⟩

end Sys2Proof.Machine
